-- ==== Sys2Proof/Word.lean ====
section
/-! DEFINITION. The data widths of the engine: one memory cell, register and address is a 16-bit word (rule R6),
a key code and a console character is an 8-bit byte (rules R10 and R60). -/

namespace Sys2Proof

/-- A register, a memory cell, an address or an instruction word: 16 bits, arithmetic modulo 65536 (R6, R11). -/
abbrev Word := BitVec 16

/-- A key code or one byte of the console output stream: 8 bits (R10). -/
abbrev Byte := BitVec 8

end Sys2Proof
end

