-- ==== Sys2Proof/Syntax.lean ====
section
/-! DEFINITION. The instructions: one constructor per row of spec/opcode_table.json, the alias rows RET and the six trap
routines included (rules R88, R96 and R98). Fields are the operand fields of rules R81 to R85. -/

namespace Sys2Proof

/-- The eight general registers, named in a word by a 3-bit index (R20, R82). -/
inductive Reg where
  | r0 | r1 | r2 | r3 | r4 | r5 | r6 | r7
  deriving DecidableEq, Repr

/-- The sixteen opcode values of `instr[15:12]`, in the order 0 to 15 (R87, R88). -/
inductive Opcode where
  | br | add | ld | st | jsr | and | ldr | str | rti | not | ldi | sti | jmp | res | lea | trap
  deriving DecidableEq, Repr

/-- The instructions. Bits the decoder ignores (R90) are not part of an instruction, but for the low twelve bits of a
reserved word, which `FAULT.info` records (R191). -/
inductive Instr where
  /-- BR: the condition bits n, z, p and `PCoffset9` (R130). -/
  | br (n z p : Bool) (off : BitVec 9)
  /-- ADD, register form: DR, SR1, SR2 (R120). -/
  | addReg (dr sr1 sr2 : Reg)
  /-- ADD, immediate form: DR, SR1, imm5 (R121). -/
  | addImm (dr sr1 : Reg) (imm : BitVec 5)
  /-- LD: DR, `PCoffset9` (R140). -/
  | ld (dr : Reg) (off : BitVec 9)
  /-- ST: SR, `PCoffset9` (R144). -/
  | st (sr : Reg) (off : BitVec 9)
  /-- JSR: `PCoffset11` (R134). -/
  | jsr (off : BitVec 11)
  /-- JSRR: BaseR (R135). -/
  | jsrr (base : Reg)
  /-- AND, register form: DR, SR1, SR2 (R122). -/
  | andReg (dr sr1 sr2 : Reg)
  /-- AND, immediate form: DR, SR1, imm5 (R123). -/
  | andImm (dr sr1 : Reg) (imm : BitVec 5)
  /-- LDR: DR, BaseR, offset6 (R142). -/
  | ldr (dr base : Reg) (off : BitVec 6)
  /-- STR: SR, BaseR, offset6 (R146). -/
  | str (sr base : Reg) (off : BitVec 6)
  /-- RTI, reserved: bits 11:0 of the word (R180). -/
  | rti (low : BitVec 12)
  /-- NOT: DR, SR1 (R124). -/
  | not (dr sr1 : Reg)
  /-- LDI: DR, `PCoffset9` (R141). -/
  | ldi (dr : Reg) (off : BitVec 9)
  /-- STI: SR, `PCoffset9` (R145). -/
  | sti (sr : Reg) (off : BitVec 9)
  /-- JMP: BaseR (R132); with BaseR = R7 the words are those of `ret`. -/
  | jmp (base : Reg)
  /-- RET, the words of JMP with BaseR = R7 (R133). -/
  | ret
  /-- RES, reserved: bits 11:0 of the word (R181). -/
  | res (low : BitVec 12)
  /-- LEA: DR, `PCoffset9` (R143). -/
  | lea (dr : Reg) (off : BitVec 9)
  /-- TRAP: trapvect8 (R160); with a recognised vector the words are those of the routine's own constructor. -/
  | trap (vec : BitVec 8)
  /-- GETC, the words of TRAP x20 (R162). -/
  | getc
  /-- OUT, the words of TRAP x21 (R163). -/
  | out
  /-- PUTS, the words of TRAP x22 (R164). -/
  | puts
  /-- IN, the words of TRAP x23 (R165). -/
  | inKey
  /-- PUTSP, the words of TRAP x24 (R166). -/
  | putsp
  /-- HALT, the words of TRAP x25 (R167). -/
  | halt
  deriving DecidableEq, Repr

end Sys2Proof
end

