-- ==== Sys2Proof/WellFormed.lean ====
section
/-! DEFINITION. Which instructions are the decoder's own reading of their words. Every operand value of every field is
legal (rules R83, R89 and R91); what is excluded is a second reading of the words of RET and of the six trap routines. -/

namespace Sys2Proof

/-- The six vectors that name a trap routine, 0x20 to 0x25 (R92). -/
def recognisedVector (vec : BitVec 8) : Bool :=
  decide (0x20 ≤ vec.toNat) && decide (vec.toNat ≤ 0x25)

/-- The instruction is the one its words decode to (R96): JMP R7 is `ret`, TRAP with a recognised vector is the routine. -/
def Instr.wellFormed : Instr → Bool
  | .jmp base => decide (base ≠ .r7)
  | .trap vec => !recognisedVector vec
  | .br _ _ _ _ | .addReg _ _ _ | .addImm _ _ _ | .ld _ _ | .st _ _ | .jsr _ | .jsrr _ | .andReg _ _ _
  | .andImm _ _ _ | .ldr _ _ _ | .str _ _ _ | .rti _ | .not _ _ | .ldi _ _ | .sti _ _ | .ret | .res _ | .lea _ _
  | .getc | .out | .puts | .inKey | .putsp | .halt => true

end Sys2Proof
end

