-- ==== Sys2Proof/Decode.lean ====
section
/-! DEFINITION. The decoder and the encoder (30_encoding.md). Decoding is total: every one of the 65536 words is an
instruction (rule R89), so the decoder refuses nothing; the words of the two reserved opcodes decode to `rti` and `res`.
The opcode values, the places of the offset fields and of n, z, p are the spec's rules R81, R85 and R88, which the spec
takes from general knowledge (PRESUMED, assumption 1). -/

namespace Sys2Proof

/-! ## Fields (R81 to R85) -/

/-- The register a 3-bit field names, by its unsigned value (R82). -/
def Reg.ofBits (b : BitVec 3) : Reg :=
  match b.getLsbD 2, b.getLsbD 1, b.getLsbD 0 with
  | false, false, false => .r0
  | false, false, true => .r1
  | false, true, false => .r2
  | false, true, true => .r3
  | true, false, false => .r4
  | true, false, true => .r5
  | true, true, false => .r6
  | true, true, true => .r7

/-- A register's 3-bit index (R82). -/
def Reg.bits : Reg → BitVec 3
  | .r0 => 0b000#3
  | .r1 => 0b001#3
  | .r2 => 0b010#3
  | .r3 => 0b011#3
  | .r4 => 0b100#3
  | .r5 => 0b101#3
  | .r6 => 0b110#3
  | .r7 => 0b111#3

/-- The opcode of a word, `instr[15:12]`, by the map of rule R88; all sixteen values, no default (R89). -/
def Opcode.ofWord (w : Word) : Opcode :=
  match w.getLsbD 15, w.getLsbD 14, w.getLsbD 13, w.getLsbD 12 with
  | false, false, false, false => .br
  | false, false, false, true => .add
  | false, false, true, false => .ld
  | false, false, true, true => .st
  | false, true, false, false => .jsr
  | false, true, false, true => .and
  | false, true, true, false => .ldr
  | false, true, true, true => .str
  | true, false, false, false => .rti
  | true, false, false, true => .not
  | true, false, true, false => .ldi
  | true, false, true, true => .sti
  | true, true, false, false => .jmp
  | true, true, false, true => .res
  | true, true, true, false => .lea
  | true, true, true, true => .trap

/-- The four bits of an opcode (R88). -/
def Opcode.bits : Opcode → BitVec 4
  | .br => 0b0000#4
  | .add => 0b0001#4
  | .ld => 0b0010#4
  | .st => 0b0011#4
  | .jsr => 0b0100#4
  | .and => 0b0101#4
  | .ldr => 0b0110#4
  | .str => 0b0111#4
  | .rti => 0b1000#4
  | .not => 0b1001#4
  | .ldi => 0b1010#4
  | .sti => 0b1011#4
  | .jmp => 0b1100#4
  | .res => 0b1101#4
  | .lea => 0b1110#4
  | .trap => 0b1111#4

/-- `DR`, or `SR` of a store: bits 11:9 (R82). -/
def fieldDR (w : Word) : Reg := Reg.ofBits (w.extractLsb' 9 3)

/-- `SR1`, or `BaseR`: bits 8:6 (R82). -/
def fieldSR1 (w : Word) : Reg := Reg.ofBits (w.extractLsb' 6 3)

/-- `SR2`: bits 2:0 (R82). -/
def fieldSR2 (w : Word) : Reg := Reg.ofBits (w.extractLsb' 0 3)

/-- `imm5`: bits 4:0 (R83). -/
def fieldImm5 (w : Word) : BitVec 5 := w.extractLsb' 0 5

/-- `offset6`: bits 5:0 (R83). -/
def fieldOff6 (w : Word) : BitVec 6 := w.extractLsb' 0 6

/-- `PCoffset9`: bits 8:0 (R83). -/
def fieldOff9 (w : Word) : BitVec 9 := w.extractLsb' 0 9

/-- `PCoffset11`: bits 10:0 (R83). -/
def fieldOff11 (w : Word) : BitVec 11 := w.extractLsb' 0 11

/-- `trapvect8`: bits 7:0 (R83). -/
def fieldVect8 (w : Word) : BitVec 8 := w.extractLsb' 0 8

/-- Bits 11:0, which a reserved word carries into `FAULT.info` (R191). -/
def fieldLow12 (w : Word) : BitVec 12 := w.extractLsb' 0 12

/-! ## Decoding (R88 to R92, R113) -/

/-- The instruction of a TRAP word: the routine of a recognised vector, else `trap` itself (R92). -/
def decodeTrap (vec : BitVec 8) : Instr :=
  if vec = 0x20#8 then .getc
  else if vec = 0x21#8 then .out
  else if vec = 0x22#8 then .puts
  else if vec = 0x23#8 then .inKey
  else if vec = 0x24#8 then .putsp
  else if vec = 0x25#8 then .halt
  else .trap vec

/-- The instruction of a JMP word: RET when `BaseR` is R7 (R96). -/
def decodeJmp (base : Reg) : Instr :=
  if base = .r7 then .ret else .jmp base

/-- The instruction a word holds (R88, R113): by the opcode, by bit 5 for ADD and AND, by bit 11 for the JSR opcode (R84). -/
def decode (w : Word) : Instr :=
  match Opcode.ofWord w with
  | .br => .br (w.getLsbD 11) (w.getLsbD 10) (w.getLsbD 9) (fieldOff9 w)
  | .add =>
    if w.getLsbD 5 then .addImm (fieldDR w) (fieldSR1 w) (fieldImm5 w)
    else .addReg (fieldDR w) (fieldSR1 w) (fieldSR2 w)
  | .ld => .ld (fieldDR w) (fieldOff9 w)
  | .st => .st (fieldDR w) (fieldOff9 w)
  | .jsr => if w.getLsbD 11 then .jsr (fieldOff11 w) else .jsrr (fieldSR1 w)
  | .and =>
    if w.getLsbD 5 then .andImm (fieldDR w) (fieldSR1 w) (fieldImm5 w)
    else .andReg (fieldDR w) (fieldSR1 w) (fieldSR2 w)
  | .ldr => .ldr (fieldDR w) (fieldSR1 w) (fieldOff6 w)
  | .str => .str (fieldDR w) (fieldSR1 w) (fieldOff6 w)
  | .rti => .rti (fieldLow12 w)
  | .not => .not (fieldDR w) (fieldSR1 w)
  | .ldi => .ldi (fieldDR w) (fieldOff9 w)
  | .sti => .sti (fieldDR w) (fieldOff9 w)
  | .jmp => decodeJmp (fieldSR1 w)
  | .res => .res (fieldLow12 w)
  | .lea => .lea (fieldDR w) (fieldOff9 w)
  | .trap => decodeTrap (fieldVect8 w)

/-- The word of an opcode-table row numbered as the table numbers its bits, given to the decoder. An instruction is one
16-bit cell (R80), so the table's `nbits` low bits are the cell and the bits above them are 0. -/
def decodeTableWord (nbits w : Nat) : Option Instr :=
  some (decode (BitVec.ofNat 16 (w % 2 ^ nbits)))

/-! ## Encoding (R81, R97): the formats of rule R81, then the canonical word of each instruction -/

/-- A one-bit field. -/
def bit (b : Bool) : BitVec 1 := BitVec.ofBool b

/-- Format `RRR`: opcode, DR, SR1, bit 5 = 0, bits 4:3 = 0, SR2. -/
def formatRRR (op : Opcode) (dr sr1 sr2 : Reg) : Word := op.bits ++ dr.bits ++ sr1.bits ++ 0b000#3 ++ sr2.bits

/-- Format `RRI`: opcode, DR, SR1, bit 5 = 1, imm5. -/
def formatRRI (op : Opcode) (dr sr1 : Reg) (imm : BitVec 5) : Word := op.bits ++ dr.bits ++ sr1.bits ++ 0b1#1 ++ imm

/-- Formats `BO6` and `RR`: opcode, the register at 11:9, the register at 8:6, bits 5:0. -/
def formatBO6 (op : Opcode) (r base : Reg) (off : BitVec 6) : Word := op.bits ++ r.bits ++ base.bits ++ off

/-- Formats `JMP` and `JSRR`: opcode, bits 11:9 = 0, BaseR, bits 5:0 = 0. -/
def formatBase (op : Opcode) (base : Reg) : Word := op.bits ++ 0b000#3 ++ base.bits ++ 0b000000#6

/-- Format `PC9`: opcode, the register at 11:9, `PCoffset9`. -/
def formatPC9 (op : Opcode) (r : Reg) (off : BitVec 9) : Word := op.bits ++ r.bits ++ off

/-- Format `BR`: opcode, n, z, p, `PCoffset9`. -/
def formatBR (op : Opcode) (n z p : Bool) (off : BitVec 9) : Word := op.bits ++ bit n ++ bit z ++ bit p ++ off

/-- Format `JSR`: opcode, bit 11 = 1, `PCoffset11`. -/
def formatJSR (op : Opcode) (off : BitVec 11) : Word := op.bits ++ 0b1#1 ++ off

/-- Format `TRAP`: opcode, bits 11:8 = 0, trapvect8. -/
def formatTRAP (op : Opcode) (vec : BitVec 8) : Word := op.bits ++ 0b0000#4 ++ vec

/-- Format `NONE`: opcode, bits 11:0. -/
def formatNONE (op : Opcode) (low : BitVec 12) : Word := op.bits ++ low

/-- The canonical word of an instruction: ignored bits as rule R90 says an assembler emits them (0, but for NOT whose
bits 5:0 are 111111). -/
def encode : Instr → Word
  | .br n z p off => formatBR .br n z p off
  | .addReg dr sr1 sr2 => formatRRR .add dr sr1 sr2
  | .addImm dr sr1 imm => formatRRI .add dr sr1 imm
  | .ld dr off => formatPC9 .ld dr off
  | .st sr off => formatPC9 .st sr off
  | .jsr off => formatJSR .jsr off
  | .jsrr base => formatBase .jsr base
  | .andReg dr sr1 sr2 => formatRRR .and dr sr1 sr2
  | .andImm dr sr1 imm => formatRRI .and dr sr1 imm
  | .ldr dr base off => formatBO6 .ldr dr base off
  | .str sr base off => formatBO6 .str sr base off
  | .rti low => formatNONE .rti low
  | .not dr sr1 => formatBO6 .not dr sr1 0b111111#6
  | .ldi dr off => formatPC9 .ldi dr off
  | .sti sr off => formatPC9 .sti sr off
  | .jmp base => formatBase .jmp base
  | .ret => formatBase .jmp .r7
  | .res low => formatNONE .res low
  | .lea dr off => formatPC9 .lea dr off
  | .trap vec => formatTRAP .trap vec
  | .getc => formatTRAP .trap 0x20#8
  | .out => formatTRAP .trap 0x21#8
  | .puts => formatTRAP .trap 0x22#8
  | .inKey => formatTRAP .trap 0x23#8
  | .putsp => formatTRAP .trap 0x24#8
  | .halt => formatTRAP .trap 0x25#8

end Sys2Proof
end

