-- ==== Sys2Proof/Config.lean ====
section
/-! DEFINITION. What one implementation of the engine fixes: the addresses of rule R6 and the open parameters of rule R7. -/

namespace Sys2Proof.Config

/-- `KBSR`, the keyboard status register (R6, R31). -/
def kbsrAddr : Word := 0xFE00#16

/-- `KBDR`, the keyboard data register (R6, R32). -/
def kbdrAddr : Word := 0xFE02#16

/-- The value of `PC` after reset (R6, R23, R222). -/
def resetPc : Word := 0x3000#16

/-- The two readings of the rule that ends a packed string (R7 `PUTSP_RULE`, R166, 93_implementation_defined.md U5). -/
inductive PutspRule where
  /-- Output stops at the first zero byte: the default, and the reading 90_conflicts.md C7 chooses. -/
  | zeroByte
  /-- Output stops only at a cell that is wholly zero, and a zero high byte is skipped. -/
  | zeroCell
  deriving DecidableEq, Repr

/-- The open parameters of rule R7 that execution depends on. They stand in the state (`State.params`) so that a
statement over every state holds for every value of them; no instruction writes them (DESIGN CHOICE, assumption 4). -/
structure Params where
  /-- `HALT_MSG`, written by the HALT routine. -/
  haltMsg : List Byte
  /-- `IN_PROMPT`, written by the IN routine before it reads. -/
  inPrompt : List Byte
  /-- `EXIT_FAULT`, the exit status of a fatal condition; nonzero (R196). -/
  exitFault : Nat
  /-- `PUTSP_RULE`. -/
  putspRule : PutspRule
  deriving DecidableEq, Repr

/-- The defaults of rule R7: "HALT" and a line feed, "Enter a character: ", 1, and `zero_byte`
(the two texts are PRESUMED: the spec takes them from general knowledge, G5; assumption 5). -/
def Params.default : Params where
  haltMsg := [0x48#8, 0x41#8, 0x4C#8, 0x54#8, 0x0A#8]
  inPrompt := [0x45#8, 0x6E#8, 0x74#8, 0x65#8, 0x72#8, 0x20#8, 0x61#8, 0x20#8, 0x63#8, 0x68#8, 0x61#8, 0x72#8,
    0x61#8, 0x63#8, 0x74#8, 0x65#8, 0x72#8, 0x3A#8, 0x20#8]
  exitFault := 1
  putspRule := .zeroByte

end Sys2Proof.Config
end

