-- ==== Sys2Proof/Machine/State.lean ====
section
/-! DEFINITION. The state of the engine as plain data (10_state.md), its value after reset, and the reasons a step can stop. -/

namespace Sys2Proof.Machine

open Sys2Proof

/-- The general registers, one bank, none hard-wired (R20, R21). -/
structure RegFile where
  r0 : Word
  r1 : Word
  r2 : Word
  r3 : Word
  r4 : Word
  r5 : Word
  r6 : Word
  r7 : Word
  deriving DecidableEq, Repr

/-- The condition-flag state: exactly one of three values (R26). -/
inductive Cond where
  | neg | zero | pos
  deriving DecidableEq, Repr

/-- `FAULT.cause` (R29). -/
inductive FaultCause where
  | none | invalidOpcode | invalidTrapVector
  deriving DecidableEq, Repr

/-- `FAULT`, the fault record (R29). -/
structure FaultRecord where
  cause : FaultCause
  info : Word
  deriving DecidableEq, Repr

/-- The routine inside which the engine waits for a key (R118, R207). -/
inductive KeyWait where
  | getc | inKey
  deriving DecidableEq, Repr

/-- One stored cell: an address below 65536 and the 16-bit word it holds. The address space has no bytes (R60), so a
cell is the unit of memory here (DESIGN CHOICE, assumption 2). -/
abbrev MemCell := Nat × Word

/-- The memory array, in one canonical form (`Memory.wf`): addresses strictly rising, no cell that holds what an unlisted
address reads as. -/
abbrev Memory := List MemCell

/-- What a cell that nothing has written reads as: the default of `INIT_MEM` (R7, R36, R227; DESIGN CHOICE, assumption 3). -/
def Memory.unlisted : Word := 0x0000#16

/-- The whole state. -/
structure State where
  /-- `R0` to `R7` (R20). -/
  regs : RegFile
  /-- `PC` (R23). -/
  pc : Word
  /-- `COND` (R26). -/
  cond : Cond
  /-- `RUN`: true is RUNNING, false is HALTED (R28). -/
  run : Bool
  /-- `FAULT` (R29). -/
  fault : FaultRecord
  /-- `M`, with `KBSR` and `KBDR` among its cells (R30 to R32). -/
  mem : Memory
  /-- The wait for a key inside GETC or IN, if there is one (R118, R207). -/
  wait : Option KeyWait
  /-- `KEYS`, the oldest key code first (R35). -/
  keys : List Byte
  /-- What the environment appends to `KEYS` before each further sampling of the keyboard (R9, R115; assumption 6). -/
  arrivals : List (List Byte)
  /-- `OUT_STREAM`, the first byte written first (R35, R169). -/
  outStream : List Byte
  /-- How many bytes of `outStream` the last `ConsoleFlush` made visible (R10; assumption 19). -/
  flushed : Nat
  /-- How many times `HostRestoreTerminal` was emitted (R10; assumption 19). -/
  terminalRestores : Nat
  /-- The open parameters, which no instruction writes (R7; assumption 4). -/
  params : Config.Params
  deriving DecidableEq, Repr

/-- The machine right after reset: the values of rule R36 with no image loaded, at the end of the boot order of rule R221,
so RUNNING and about to fetch at 0x3000 (assumption 11). `KEYS` is the environment's and is empty here (assumption 7). -/
def State.reset : State where
  regs := ⟨0#16, 0#16, 0#16, 0#16, 0#16, 0#16, 0#16, 0#16⟩
  pc := Config.resetPc
  cond := .zero
  run := true
  fault := ⟨.none, 0#16⟩
  mem := []
  wait := none
  keys := []
  arrivals := []
  outStream := []
  flushed := 0
  terminalRestores := 0
  params := Config.Params.default

/-- Why the machine stops with no next state. -/
inductive Fault where
  /-- A PUTS or PUTSP whose string has no terminator: the instruction never completes, a hang (R116, R164, R166,
  93_implementation_defined.md U6). Raised by `puts`, `putsp` and by `trap` with their vectors. Safe: the machine stops
  where the hardware goes on printing for ever, and there is no next state in either. -/
  | unterminatedString
  deriving DecidableEq, Repr

/-- Why something has no meaning in the model. -/
inductive Refusal where
  /-- An instruction whose arm of `exec` has no meaning yet; no arm answers so now. Safe. -/
  | notModelled (mnemonic : String)
  /-- An image that would pass the top of memory, refused at the launch by `boot` as rule R225 says; no instruction
  raises it. Safe. -/
  | imageOutOfRange
  /-- A file that is no origin followed by whole words, refused at the launch by `bootFiles` as rule R226 says; no
  instruction raises it. Safe. -/
  | imageTruncated
  deriving DecidableEq, Repr

end Sys2Proof.Machine
end

