-- ==== Sys2Proof/Machine/Ops.lean ====
section
/-! DEFINITION. The named operations over registers, memory, the keyboard and the console that every instruction shares:
the dispatcher of 20_memory.md, the interface primitives of rule R10, the fetch of rules R111 and R112, the entry to a
fatal condition of rule R193 and the entry to a trap of rule R198. There is no return from either (R201). -/

namespace Sys2Proof.Machine

open Sys2Proof

/-! ## General registers and the program counter (R20, R23) -/

/-- Read a general register by index. -/
def RegFile.get (f : RegFile) : Reg → Word
  | .r0 => f.r0
  | .r1 => f.r1
  | .r2 => f.r2
  | .r3 => f.r3
  | .r4 => f.r4
  | .r5 => f.r5
  | .r6 => f.r6
  | .r7 => f.r7

/-- Write a general register by index. -/
def RegFile.set (f : RegFile) (r : Reg) (v : Word) : RegFile :=
  match r with
  | .r0 => { f with r0 := v }
  | .r1 => { f with r1 := v }
  | .r2 => { f with r2 := v }
  | .r3 => { f with r3 := v }
  | .r4 => { f with r4 := v }
  | .r5 => { f with r5 := v }
  | .r6 => { f with r6 := v }
  | .r7 => { f with r7 := v }

/-- `R[i]` (R12). -/
def State.getReg (s : State) (r : Reg) : Word := s.regs.get r

/-- `R[i] <- v` (R12). -/
def State.setReg (s : State) (r : Reg) (v : Word) : State := { s with regs := s.regs.set r v }

/-- `pc <- target` (R12). -/
def State.setPc (s : State) (target : Word) : State := { s with pc := target }

/-! ## The memory array (R30) -/

/-- `M[a]`: the stored cell, with no device side effect (R12). -/
def Memory.read : Memory → Word → Word
  | [], _ => Memory.unlisted
  | c :: m, a => if c.1 = a.toNat then c.2 else Memory.read m a

/-- The list without its cells at address `k`. -/
def Memory.erase : Memory → Nat → Memory
  | [], _ => []
  | c :: m, k => if c.1 = k then Memory.erase m k else c :: Memory.erase m k

/-- The list with a cell put before the first cell of a higher address. -/
def Memory.insert : Memory → Nat → Word → Memory
  | [], k, v => [(k, v)]
  | c :: m, k, v => if k < c.1 then (k, v) :: c :: m else c :: Memory.insert m k v

/-- `M[a] <- v`. Writing what an unlisted cell reads as removes the cell from the list. -/
def Memory.write (m : Memory) (a : Word) (v : Word) : Memory :=
  if v = Memory.unlisted then Memory.erase m a.toNat else Memory.insert (Memory.erase m a.toNat) a.toNat v

/-- The canonical form: addresses strictly rising and below 65536, no cell that an unlisted address would read as. -/
abbrev Memory.wf (m : Memory) : Prop :=
  m.Pairwise (fun c d => c.1 < d.1) ∧ ∀ c ∈ m, c.1 < 65536 ∧ c.2 ≠ Memory.unlisted

/-- `M[a]` of a state. -/
def State.cell (s : State) (a : Word) : Word := s.mem.read a

/-- `M[a] <- v` on a state. -/
def State.setCell (s : State) (a v : Word) : State := { s with mem := s.mem.write a v }

/-! ## The keyboard (R10, R35) -/

/-- A moment at which the engine looks at the keyboard: the environment's appends up to then are in `KEYS` (R115). -/
def State.sampleKeyboard (s : State) : State :=
  match s.arrivals with
  | [] => s
  | batch :: later => { s with keys := s.keys ++ batch, arrivals := later }

/-- `KeyAvailable()` and `KeyRead()` on the sampled queue: `some` exactly when a key is available, and then the oldest key
code, removed from the queue; `none` when the queue is empty, where a `KeyRead()` has to wait (R10, R118). -/
def keyRead (s : State) : Option Byte × State :=
  let t := s.sampleKeyboard
  match t.keys with
  | [] => (none, t)
  | k :: rest => (some k, { t with keys := rest })

/-! ## The memory-mapped I/O dispatcher (R51 to R59) -/

/-- The `KBSR` side effect: with a key available bit 15 of `KBSR` is set and the key moves to `KBDR` (R53), with none
bit 15 is cleared (R54). -/
def pollKeyboard (s : State) : State :=
  match keyRead s with
  | (some k, t) =>
    (t.setCell Config.kbsrAddr (t.cell Config.kbsrAddr ||| 0x8000#16)).setCell Config.kbdrAddr (k.setWidth 16)
  | (none, t) => t.setCell Config.kbsrAddr (t.cell Config.kbsrAddr &&& 0x7FFF#16)

/-- What a read of address `a` does before the cell is returned: the dispatcher compares with `KBSR` alone (R52). -/
def readEffect (a : Word) (s : State) : State :=
  if a = Config.kbsrAddr then pollKeyboard s else s

/-- `MemRead(a, 16)`, the only way the engine reads memory: the word and the state after (R51). -/
def memRead (a : Word) (s : State) : Word × State :=
  ((readEffect a s).cell a, readEffect a s)

/-- `MemWrite(a, 16, v)`, the only way the engine writes memory (R58, R59). -/
def memWrite (a v : Word) (s : State) : State := s.setCell a v

/-! ## The console (R10, R169) -/

/-- `ConsoleWrite(b)`. -/
def State.consoleWrite (s : State) (b : Byte) : State := { s with outStream := s.outStream ++ [b] }

/-- `ConsoleWrite` of each byte in order. -/
def State.consoleWriteAll (s : State) (bs : List Byte) : State := { s with outStream := s.outStream ++ bs }

/-- `ConsoleFlush()`: everything written so far is visible to the user. -/
def State.consoleFlush (s : State) : State := { s with flushed := s.outStream.length }

/-! ## The end of a run (R28, R193) -/

/-- `HostRestoreTerminal()` (R10). -/
def State.restoreTerminal (s : State) : State := { s with terminalRestores := s.terminalRestores + 1 }

/-- `RUN <- 0` (R28). -/
def State.stop (s : State) : State := { s with run := false }

/-- `FAULT <- (cause, info)` (R29). -/
def State.setFault (s : State) (cause : FaultCause) (info : Word) : State := { s with fault := ⟨cause, info⟩ }

/-- `raise X(info)`, the entry to a fatal condition: nothing is saved and nothing is vectored (R193). -/
def raiseFatal (cause : FaultCause) (info : Word) (s : State) : State :=
  ((s.setFault cause info).restoreTerminal).stop

/-- `raise InvalidOpcode(instr)` (R191). -/
def raiseInvalidOpcode (instr : Word) (s : State) : State := raiseFatal .invalidOpcode instr s

/-- `raise InvalidTrapVector(vec)` (R192). -/
def raiseInvalidTrapVector (vec : BitVec 8) (s : State) : State := raiseFatal .invalidTrapVector (vec.setWidth 16) s

/-! ## Fetch and linkage -/

/-- The fetch through the dispatcher (R111) and the increment (R112): the word and the state the instruction runs in. -/
def fetch (s : State) : Word × State :=
  let r := memRead s.pc s
  (r.1, r.2.setPc (s.pc + 1#16))

/-- `R[7] <- PC`, the return address of JSR, JSRR and TRAP (R134, R135, R160). -/
def saveReturn (s : State) : State := s.setReg .r7 s.pc

end Sys2Proof.Machine
end

