-- ==== Sys2Proof/Machine/Flags.lean ====
section
/-! DEFINITION. The condition flags: the flag update of rule R114 and the branch condition of rule R130. -/

namespace Sys2Proof.Machine

open Sys2Proof

/-- The class of a word: NEG if bit 15 is set, else ZERO if it is zero, else POS (R114). -/
def condOf (v : Word) : Cond :=
  if v.getLsbD 15 then .neg else if v = 0#16 then .zero else .pos

/-- `setcc(v)` (R114). -/
def setcc (v : Word) (s : State) : State := { s with cond := condOf v }

/-- `R[DR] <- v; setcc(R[DR])`, the end of the seven flag-defining instructions (R27). -/
def writeFlagged (dr : Reg) (v : Word) (s : State) : State :=
  let t := s.setReg dr v
  setcc (t.getReg dr) t

/-- Whether a BR with condition bits n, z, p is taken (R130). -/
def branchTaken (n z p : Bool) (c : Cond) : Bool :=
  match c with
  | .neg => n
  | .zero => z
  | .pos => p

end Sys2Proof.Machine
end

