-- ==== Sys2Proof/Machine/Operands.lean ====
section
/-! DEFINITION. The operand forms: sign extension (rule R86), the address resolver (rule R147), and the bytes of a word
(rule R60). -/

namespace Sys2Proof.Machine

open Sys2Proof

/-- `sext_N(v)`: sign extension of an N-bit field to 16 bits (R86). -/
def sext {n : Nat} (v : BitVec n) : Word := v.signExtend 16

/-- `zext_8(v)`: zero extension of a byte to 16 bits (R12). -/
def zext (v : Byte) : Word := v.setWidth 16

/-- Bits 7:0 of a word (R60). -/
def lowByte (w : Word) : Byte := w.extractLsb' 0 8

/-- Bits 15:8 of a word (R60). -/
def highByte (w : Word) : Byte := w.extractLsb' 8 8

/-- A PC-relative address: the incremented PC plus the extended offset, modulo 65536 (R147, R24). -/
def pcRelative {n : Nat} (off : BitVec n) (s : State) : Word := s.pc + sext off

/-- A base-plus-offset address, modulo 65536 (R147). -/
def baseOffset (base : Reg) (off : BitVec 6) (s : State) : Word := s.getReg base + sext off

/-- The indirect mode: the pointer, read through the dispatcher at the PC-relative address, and the state after that
read (R147). -/
def indirect (off : BitVec 9) (s : State) : Word × State := memRead (pcRelative off s) s

end Sys2Proof.Machine
end

