-- ==== Sys2Proof/Machine/Alu.lean ====
section
/-! DEFINITION. ADD, AND, NOT (41_alu.md). Sources are read before the destination is written; none can raise an exception. -/

namespace Sys2Proof.Machine

open Sys2Proof

/-- ADD, register form (R120). -/
def execAddReg (dr sr1 sr2 : Reg) (s : State) : Host.Outcome State Fault Refusal :=
  .next (writeFlagged dr (s.getReg sr1 + s.getReg sr2) s)

/-- ADD, immediate form (R121). -/
def execAddImm (dr sr1 : Reg) (imm : BitVec 5) (s : State) : Host.Outcome State Fault Refusal :=
  .next (writeFlagged dr (s.getReg sr1 + sext imm) s)

/-- AND, register form (R122). -/
def execAndReg (dr sr1 sr2 : Reg) (s : State) : Host.Outcome State Fault Refusal :=
  .next (writeFlagged dr (s.getReg sr1 &&& s.getReg sr2) s)

/-- AND, immediate form: the immediate is sign-extended (R123). -/
def execAndImm (dr sr1 : Reg) (imm : BitVec 5) (s : State) : Host.Outcome State Fault Refusal :=
  .next (writeFlagged dr (s.getReg sr1 &&& sext imm) s)

/-- NOT (R124). -/
def execNot (dr sr1 : Reg) (s : State) : Host.Outcome State Fault Refusal :=
  .next (writeFlagged dr (~~~(s.getReg sr1)) s)

end Sys2Proof.Machine
end

