-- ==== Sys2Proof/Machine/Control.lean ====
section
/-! DEFINITION. BR, JMP, RET, JSR, JSRR (42_control.md). `s.pc` is the incremented PC; none writes COND or memory. -/

namespace Sys2Proof.Machine

open Sys2Proof

/-- BR (R130). -/
def execBr (n z p : Bool) (off : BitVec 9) (s : State) : Host.Outcome State Fault Refusal :=
  .next (if branchTaken n z p s.cond then s.setPc (pcRelative off s) else s)

/-- JMP (R132). -/
def execJmp (base : Reg) (s : State) : Host.Outcome State Fault Refusal :=
  .next (s.setPc (s.getReg base))

/-- RET (R133). -/
def execRet (s : State) : Host.Outcome State Fault Refusal :=
  .next (s.setPc (s.getReg .r7))

/-- JSR (R134). -/
def execJsr (off : BitVec 11) (s : State) : Host.Outcome State Fault Refusal :=
  let t := saveReturn s
  .next (t.setPc (pcRelative off t))

/-- JSRR: `R[BaseR]` is read after the write of `R[7]` (R135; 90_conflicts.md C10). -/
def execJsrr (base : Reg) (s : State) : Host.Outcome State Fault Refusal :=
  let t := saveReturn s
  .next (t.setPc (t.getReg base))

end Sys2Proof.Machine
end

