-- ==== Sys2Proof/Machine/LoadStore.lean ====
section
/-! DEFINITION. LD, LDI, LDR, LEA, ST, STI, STR (43_load_store.md). Every read goes through the dispatcher (rule R57);
`s.pc` is the incremented PC; every address is legal (rule R50). -/

namespace Sys2Proof.Machine

open Sys2Proof

/-- LD (R140). -/
def execLd (dr : Reg) (off : BitVec 9) (s : State) : Host.Outcome State Fault Refusal :=
  let r := memRead (pcRelative off s) s
  .next (writeFlagged dr r.1 r.2)

/-- LDI: the pointer is read first, then the datum (R141). -/
def execLdi (dr : Reg) (off : BitVec 9) (s : State) : Host.Outcome State Fault Refusal :=
  let p := indirect off s
  let r := memRead p.1 p.2
  .next (writeFlagged dr r.1 r.2)

/-- LDR: the base is read before the destination is written (R142). -/
def execLdr (dr base : Reg) (off : BitVec 6) (s : State) : Host.Outcome State Fault Refusal :=
  let r := memRead (baseOffset base off s) s
  .next (writeFlagged dr r.1 r.2)

/-- LEA: the address itself, no memory access; it sets the flags (R143). -/
def execLea (dr : Reg) (off : BitVec 9) (s : State) : Host.Outcome State Fault Refusal :=
  .next (writeFlagged dr (pcRelative off s) s)

/-- ST (R144). -/
def execSt (sr : Reg) (off : BitVec 9) (s : State) : Host.Outcome State Fault Refusal :=
  .next (memWrite (pcRelative off s) (s.getReg sr) s)

/-- STI: the pointer is read before the write (R145). -/
def execSti (sr : Reg) (off : BitVec 9) (s : State) : Host.Outcome State Fault Refusal :=
  let p := indirect off s
  .next (memWrite p.1 (p.2.getReg sr) p.2)

/-- STR (R146). -/
def execStr (sr base : Reg) (off : BitVec 6) (s : State) : Host.Outcome State Fault Refusal :=
  .next (memWrite (baseOffset base off s) (s.getReg sr) s)

end Sys2Proof.Machine
end

