-- ==== Sys2Proof/Machine/Reserved.lean ====
section
/-! DEFINITION. The reserved opcodes RTI and RES (45_reserved.md): each raises InvalidOpcode with its whole word, which is
taken as a next state (rules R191 and R193). -/

namespace Sys2Proof.Machine

open Sys2Proof

/-- RTI, opcode 1000: it returns from nothing (R180). -/
def execRti (low : BitVec 12) (s : State) : Host.Outcome State Fault Refusal :=
  .next (raiseInvalidOpcode (0b1000#4 ++ low) s)

/-- RES, opcode 1101 (R181). -/
def execRes (low : BitVec 12) (s : State) : Host.Outcome State Fault Refusal :=
  .next (raiseInvalidOpcode (0b1101#4 ++ low) s)

end Sys2Proof.Machine
end

