-- ==== Sys2Proof/Machine/Trap.lean ====
section
/-! DEFINITION. TRAP and the six built-in console routines (44_trap.md). TRAP saves the incremented PC in R7 for every
vector, before the vector is looked at (rule R160); a routine runs to completion inside the instruction, but for the wait
of GETC and IN; no routine writes COND (rule R168). -/

namespace Sys2Proof.Machine

open Sys2Proof

/-! ## Reading a key: GETC and IN (R118, R162, R165) -/

/-- What a routine does with the key it has read: GETC stores it, IN echoes it and stores it (R162, R165). -/
def takeKey (w : KeyWait) (k : Byte) (s : State) : State :=
  match w with
  | .getc => s.setReg .r0 (zext k)
  | .inKey => ((s.consoleWrite k).consoleFlush).setReg .r0 (zext k)

/-- `KeyRead()` inside a routine, and the rest of the routine. With no key the engine is left waiting, all state kept, and
the next step looks at the keyboard again (R118, R207; assumption 8). -/
def awaitKey (w : KeyWait) (s : State) : State :=
  match keyRead s with
  | (none, t) => { t with wait := some w }
  | (some k, t) => takeKey w k { t with wait := none }

/-! ## Printing a string: PUTS and PUTSP (R164, R166) -/

/-- What the string routines do with one cell: the bytes they write and whether the string ends there. -/
structure CellOutput where
  bytes : List Byte
  last : Bool
  deriving DecidableEq, Repr

/-- One cell of PUTS: a wholly zero cell ends the string, any other writes its low byte (R164). -/
def putsCell (w : Word) : CellOutput :=
  if w = 0#16 then ⟨[], true⟩ else ⟨[lowByte w], false⟩

/-- One cell of PUTSP under each reading of its stopping rule (R166; 93_implementation_defined.md U5). -/
def putspCell (rule : Config.PutspRule) (w : Word) : CellOutput :=
  match rule with
  | .zeroByte =>
    if lowByte w = 0#8 then ⟨[], true⟩
    else if highByte w = 0#8 then ⟨[lowByte w], true⟩
    else ⟨[lowByte w, highByte w], false⟩
  | .zeroCell =>
    if w = 0#16 then ⟨[], true⟩
    else if highByte w = 0#8 then ⟨[lowByte w], false⟩
    else ⟨[lowByte w, highByte w], false⟩

/-- The loop of the string routines from address `a`, at most `fuel` cells; none when the string has not ended by then. -/
def stringLoop (cell : Word → CellOutput) : Nat → Word → State → Option State
  | 0, _, _ => none
  | fuel + 1, a, s =>
    let r := memRead a s
    let c := cell r.1
    let t := r.2.consoleWriteAll c.bytes
    if c.last then some t else stringLoop cell fuel (a + 1#16) t

/-- A number of cells within which every string that ends has ended. A pass over all 65536 cells polls the keyboard once;
each poll uses up a batch of arrivals or a key until there are none, the poll after that clears bit 15 of `KBSR`, and a
further whole pass then changes no cell and repeats for ever (DEDUCED, assumption 9). -/
def stringFuel (s : State) : Nat :=
  65536 * (s.arrivals.length + s.keys.length + s.arrivals.flatten.length + 3)

/-- A string routine: the string at `R[0]`, then the flush; a string that never ends never completes (R164, R166, U6). -/
def printString (cell : Word → CellOutput) (s : State) : Host.Outcome State Fault Refusal :=
  match stringLoop cell (stringFuel s) (s.getReg .r0) s with
  | some t => .next t.consoleFlush
  | none => .fault .unterminatedString

/-! ## The six routines, after R[7] <- PC -/

/-- GETC (R162). -/
def getcRoutine (s : State) : State := awaitKey .getc s

/-- OUT (R163). -/
def outRoutine (s : State) : State := (s.consoleWrite (lowByte (s.getReg .r0))).consoleFlush

/-- PUTS (R164). -/
def putsRoutine (s : State) : Host.Outcome State Fault Refusal := printString putsCell s

/-- IN: the prompt is visible before the wait (R165). -/
def inRoutine (s : State) : State := awaitKey .inKey (s.consoleWriteAll s.params.inPrompt).consoleFlush

/-- PUTSP (R166). -/
def putspRoutine (s : State) : Host.Outcome State Fault Refusal := printString (putspCell s.params.putspRule) s

/-- HALT (R167). -/
def haltRoutine (s : State) : State :=
  ((s.consoleWriteAll s.params.haltMsg).consoleFlush.restoreTerminal).stop

/-! ## The instructions -/

/-- GETC (R160, R162). -/
def execGetc (s : State) : Host.Outcome State Fault Refusal := .next (getcRoutine (saveReturn s))

/-- OUT (R160, R163). -/
def execOut (s : State) : Host.Outcome State Fault Refusal := .next (outRoutine (saveReturn s))

/-- PUTS (R160, R164). -/
def execPuts (s : State) : Host.Outcome State Fault Refusal := putsRoutine (saveReturn s)

/-- IN (R160, R165). -/
def execInKey (s : State) : Host.Outcome State Fault Refusal := .next (inRoutine (saveReturn s))

/-- PUTSP (R160, R166). -/
def execPutsp (s : State) : Host.Outcome State Fault Refusal := putspRoutine (saveReturn s)

/-- HALT (R160, R167). -/
def execHalt (s : State) : Host.Outcome State Fault Refusal := .next (haltRoutine (saveReturn s))

/-- TRAP with any vector: R7 first, then the routine of a recognised vector, else the fatal condition (R160, R161). The
decoder gives the recognised vectors their own constructors; the case is written out whole as rule R160 has it. -/
def execTrap (vec : BitVec 8) (s : State) : Host.Outcome State Fault Refusal :=
  let t := saveReturn s
  if vec = 0x20#8 then .next (getcRoutine t)
  else if vec = 0x21#8 then .next (outRoutine t)
  else if vec = 0x22#8 then putsRoutine t
  else if vec = 0x23#8 then .next (inRoutine t)
  else if vec = 0x24#8 then putspRoutine t
  else if vec = 0x25#8 then .next (haltRoutine t)
  else .next (raiseInvalidTrapVector vec t)

end Sys2Proof.Machine
end

