-- ==== Sys2Proof/Machine/Step.lean ====
section
/-! DEFINITION. One step: the instruction cycle of rule R110, the resumed wait of rule R118, nothing when HALTED (rule R116). -/

namespace Sys2Proof.Machine

open Sys2Proof

/-- One step. HALTED: no fetch is made and no state changes (R116; assumption 10). Waiting inside GETC or IN: the engine
looks at the keyboard again (R118). Otherwise one instruction cycle: fetch, increment, decode, execute (R110 to R113). -/
def step (s : State) : Host.Outcome State Fault Refusal :=
  if s.run then
    match s.wait with
    | some w => .next (awaitKey w s)
    | none => exec (decode (fetch s).1) (fetch s).2
  else .next s

/-- `s` with the instruction word `w` (its `nbits` low bits) in the cell the next step fetches, RUNNING and not inside a
wait, so that the next step does fetch (assumption 12). -/
def State.withFetchWord (s : State) (nbits w : Nat) : State :=
  { s.setCell s.pc (BitVec.ofNat 16 (w % 2 ^ nbits)) with run := true, wait := none }

end Sys2Proof.Machine
end

