-- ==== Sys2Proof/Machine/Boundary.lean ====
section
/-! DEFINITION. What the host does at the two ends of a run: images and the boot order (70_reset_and_hazards.md rules R220
to R227) before the first step, `ExitStatus` (rule R196) after the last. No step calls anything here. -/

namespace Sys2Proof.Machine

open Sys2Proof

/-- A program image: where its words are stored, and the words (R223, R226). -/
structure Image where
  origin : Word
  words : List Word
  deriving DecidableEq, Repr

/-- The words of a file: 16 bits each, the first byte of a pair is bits 15:8 (R224); none for an odd number of bytes. -/
def wordsOfBytes : List Byte → Option (List Word)
  | [] => some []
  | [_] => none
  | hi :: lo :: rest => (wordsOfBytes rest).map (fun ws => (hi ++ lo) :: ws)

/-- The image a file holds, its first word the origin (R224); none for a truncated file (R226). -/
def imageOfFile (bytes : List Byte) : Option Image :=
  match wordsOfBytes bytes with
  | some (o :: ws) => some ⟨o, ws⟩
  | some [] => none
  | none => none

/-- Store words in consecutive cells from `a`, directly into the array: no device effect (R223). -/
def loadWords (a : Word) (ws : List Word) (s : State) : State :=
  match ws with
  | [] => s
  | w :: rest => loadWords (a + 1#16) rest (s.setCell a w)

/-- The image lies below the top of memory: `o + n <= 65536` (R225). -/
def Image.fits (im : Image) : Bool := decide (im.origin.toNat + im.words.length ≤ 65536)

/-- Load the images in order; a launch with an image that does not fit is refused (R223, R225). -/
def loadImages (ims : List Image) (s : State) : Host.Outcome State Fault Refusal :=
  match ims with
  | [] => .next s
  | im :: rest => if im.fits then loadImages rest (loadWords im.origin im.words s) else .refused .imageOutOfRange

/-- The state before any image is loaded, with the memory contents `init` (the open parameter `INIT_MEM`, R7, R227): rule
R36 with RUN = 0. -/
def State.powerOn (init : Memory) : State := { State.reset with run := false, mem := init }

/-- `RUN <- 1`, the last act of the boot (R221; the spec's D31). -/
def State.start (s : State) : State := { s with run := true }

/-- The boot order of rule R221: initialise, load every image, start. `HostAcquireTerminal()` is the host's (R10). -/
def boot (init : Memory) (ims : List Image) : Host.Outcome State Fault Refusal :=
  match loadImages ims (State.powerOn init) with
  | .next s => .next s.start
  | .fault r => .fault r
  | .refused r => .refused r

/-- The images of a list of files; none if one of them is truncated (R226). -/
def imagesOfFiles : List (List Byte) → Option (List Image)
  | [] => some []
  | f :: rest =>
    match imageOfFile f, imagesOfFiles rest with
    | some im, some ims => some (im :: ims)
    | _, _ => none

/-- The boot from image files: a truncated file is a load error and nothing is executed (R221, R226). -/
def bootFiles (init : Memory) (files : List (List Byte)) : Host.Outcome State Fault Refusal :=
  match imagesOfFiles files with
  | some ims => boot init ims
  | none => .refused .imageTruncated

/-- `ExitStatus`: none while RUNNING; once HALTED, 0 after a HALT and `EXIT_FAULT` after a fatal condition (R196). -/
def exitStatus (s : State) : Option Nat :=
  if s.run then none
  else if s.fault.cause = .none then some 0
  else some s.params.exitFault

end Sys2Proof.Machine
end

