-- ==== Sys2Proof/Safety.lean ====
section
/-! DEFINITION. The terms in which statements are made: the good end of a run, the invariant of the machine, the rows of
opcode_table.json, the tables of rules R22 and R27, what two states have in common, and the loop of the string routines
written as the pseudocode of rules R164 and R166 has it. -/

namespace Sys2Proof.Machine

open Sys2Proof

/-! ## Ends of a run (R116, R208) -/

/-- The good final state: HALTED with no fault (R208). -/
def GoodEnd (s : State) : Prop := s.run = false ∧ s.fault.cause = .none

/-- HALTED by a fatal condition. -/
def Faulted (s : State) : Prop := s.run = false ∧ s.fault.cause ≠ .none

/-! ## The invariant -/

/-- What the fault record may say: 0 for NONE, a word of a reserved opcode, or an unrecognised vector (R29, R191, R192). -/
def FaultRecord.Sound (f : FaultRecord) : Prop :=
  match f.cause with
  | .none => f.info = 0#16
  | .invalidOpcode => Opcode.ofWord f.info = .rti ∨ Opcode.ofWord f.info = .res
  | .invalidTrapVector => ∃ vec : BitVec 8, recognisedVector vec = false ∧ f.info = zext vec

/-- What holds of the machine between steps. -/
structure StateInv (s : State) : Prop where
  /-- Memory keeps its canonical form. -/
  mem : s.mem.wf
  /-- The fault record is one that a fatal condition writes, or none. -/
  fault : s.fault.Sound
  /-- While RUNNING no fault is recorded (R28, R193). -/
  running : s.run = true → s.fault.cause = .none
  /-- The terminal is restored at most once, and not while RUNNING (R167, R193). -/
  restores : s.terminalRestores ≤ 1 ∧ (s.run = true → s.terminalRestores = 0)
  /-- A wait is inside a TRAP of a RUNNING engine, so R7 holds the incremented PC (R118, R160). -/
  waiting : s.wait ≠ none → s.run = true ∧ s.getReg .r7 = s.pc
  /-- No more is visible than was written (R10). -/
  flushed : s.flushed ≤ s.outStream.length
  /-- `EXIT_FAULT` is nonzero (R196). -/
  exitFault : s.params.exitFault ≠ 0

/-! ## What two states have in common -/

/-- The same cell at every address. -/
def SameCells (s t : State) : Prop := ∀ a : Word, t.cell a = s.cell a

/-- The same general registers but for those listed. -/
def SameRegsBut (ds : List Reg) (s t : State) : Prop := ∀ r : Reg, r ∉ ds → t.getReg r = s.getReg r

/-- The same keyboard and console. -/
def SameDevices (s t : State) : Prop :=
  t.keys = s.keys ∧ t.arrivals = s.arrivals ∧ t.outStream = s.outStream ∧ t.flushed = s.flushed ∧
    t.terminalRestores = s.terminalRestores

/-- The same run state, fault record, wait and parameters. -/
def SameEngine (s t : State) : Prop :=
  t.run = s.run ∧ t.fault = s.fault ∧ t.wait = s.wait ∧ t.params = s.params

/-- The class of a word by its signed value (R114). -/
def signClass (v : Word) : Cond :=
  if v.toInt < 0 then .neg else if v.toInt = 0 then .zero else .pos

/-- From `s` to `t` an instruction wrote `v` to `dr`, set COND from it, and changed nothing else. -/
def WritesFlagged (dr : Reg) (v : Word) (s t : State) : Prop :=
  t.getReg dr = v ∧ SameRegsBut [dr] s t ∧ t.cond = signClass v ∧ t.pc = s.pc ∧ SameCells s t ∧ SameDevices s t ∧
    SameEngine s t

/-- From `s` to `t` an instruction stored `v` at `ea` and changed nothing else. -/
def StoresCell (ea v : Word) (s t : State) : Prop :=
  t.cell ea = v ∧ (∀ a : Word, a ≠ ea → t.cell a = s.cell a) ∧ SameRegsBut [] s t ∧ t.cond = s.cond ∧ t.pc = s.pc ∧
    SameDevices s t ∧ SameEngine s t

/-- From `s` to `t` a jump went to `target`, wrote `v` to each register listed, and changed nothing else. -/
def JumpsTo (target : Word) (ds : List Reg) (v : Word) (s t : State) : Prop :=
  t.pc = target ∧ (∀ r ∈ ds, t.getReg r = v) ∧ SameRegsBut ds s t ∧ t.cond = s.cond ∧ SameCells s t ∧
    SameDevices s t ∧ SameEngine s t

/-- From `s` to `t` the engine read through the dispatcher: only the keyboard and the two device cells may differ. -/
def ReadFrame (s t : State) : Prop :=
  (∀ a : Word, a ≠ Config.kbsrAddr → a ≠ Config.kbdrAddr → t.cell a = s.cell a) ∧ SameRegsBut [] s t ∧ t.cond = s.cond ∧
    t.pc = s.pc ∧ t.outStream = s.outStream ∧ t.flushed = s.flushed ∧ t.terminalRestores = s.terminalRestores ∧
    SameEngine s t

/-- From `s` to `t` a TRAP saved the incremented PC in R7 and changed no other register but those listed, no cell, no
flag, not the PC and no parameter; the console, the keyboard and the run state are left to the routine. -/
def TrapFrame (ds : List Reg) (s t : State) : Prop :=
  t.getReg .r7 = s.pc ∧ SameRegsBut (.r7 :: ds) s t ∧ t.cond = s.cond ∧ t.pc = s.pc ∧ SameCells s t ∧
    t.params = s.params

/-! ## Outcomes -/

/-- The outcome with a function applied to its next state. -/
def mapNext (f : State → State) (o : Host.Outcome State Fault Refusal) : Host.Outcome State Fault Refusal :=
  match o with
  | .next t => .next (f t)
  | .fault r => .fault r
  | .refused r => .refused r

/-! ## The tables of rules R22 and R27 -/

/-- The registers an instruction may write (R22). -/
def destRegs : Instr → List Reg
  | .addReg dr _ _ | .addImm dr _ _ | .andReg dr _ _ | .andImm dr _ _ | .not dr _ => [dr]
  | .ld dr _ | .ldi dr _ | .ldr dr _ _ | .lea dr _ => [dr]
  | .jsr _ | .jsrr _ => [.r7]
  | .out | .puts | .putsp | .halt => [.r7]
  | .getc | .inKey => [.r7, .r0]
  | .trap vec => if vec = 0x20#8 ∨ vec = 0x23#8 then [.r7, .r0] else [.r7]
  | .br _ _ _ _ | .jmp _ | .ret | .st _ _ | .sti _ _ | .str _ _ _ | .rti _ | .res _ => []

/-- The registers an instruction reads (R22). -/
def sourceRegs : Instr → List Reg
  | .addReg _ sr1 sr2 | .andReg _ sr1 sr2 => [sr1, sr2]
  | .addImm _ sr1 _ | .andImm _ sr1 _ | .not _ sr1 => [sr1]
  | .jmp base | .jsrr base | .ldr _ base _ => [base]
  | .ret => [.r7]
  | .st sr _ | .sti sr _ => [sr]
  | .str sr base _ => [sr, base]
  | .out | .puts | .putsp => [.r0]
  | .trap vec => if vec = 0x21#8 ∨ vec = 0x22#8 ∨ vec = 0x24#8 then [.r0] else []
  | .br _ _ _ _ | .jsr _ | .ld _ _ | .ldi _ _ | .lea _ _ | .getc | .inKey | .halt | .rti _ | .res _ => []

/-- The destination of a flag-defining instruction; none for every other instruction (R27). -/
def flagDest : Instr → Option Reg
  | .addReg dr _ _ | .addImm dr _ _ | .andReg dr _ _ | .andImm dr _ _ | .not dr _ => some dr
  | .ld dr _ | .ldi dr _ | .ldr dr _ _ | .lea dr _ => some dr
  | .br _ _ _ _ | .jmp _ | .ret | .jsr _ | .jsrr _ | .st _ _ | .sti _ _ | .str _ _ _ | .rti _ | .res _ | .trap _
  | .getc | .out | .puts | .inKey | .putsp | .halt => none

/-- The instructions that write to the console (R169). -/
def writesConsole : Instr → Bool
  | .out | .puts | .inKey | .putsp | .halt => true
  | .trap vec => recognisedVector vec && !decide (vec = 0x20#8)
  | .addReg _ _ _ | .addImm _ _ _ | .andReg _ _ _ | .andImm _ _ _ | .not _ _ | .ld _ _ | .ldi _ _ | .ldr _ _ _
  | .lea _ _ | .br _ _ _ _ | .jmp _ | .ret | .jsr _ | .jsrr _ | .st _ _ | .sti _ _ | .str _ _ _ | .rti _ | .res _
  | .getc => false

/-- The instructions that call `MemWrite` (R58). -/
def writesMemory : Instr → Bool
  | .st _ _ | .sti _ _ | .str _ _ _ => true
  | .addReg _ _ _ | .addImm _ _ _ | .andReg _ _ _ | .andImm _ _ _ | .not _ _ | .ld _ _ | .ldi _ _ | .ldr _ _ _
  | .lea _ _ | .br _ _ _ _ | .jmp _ | .ret | .jsr _ | .jsrr _ | .rti _ | .res _ | .trap _ | .getc | .out | .puts
  | .inKey | .putsp | .halt => false

/-- The instructions that call `MemRead` besides their own fetch (R57). -/
def readsMemory : Instr → Bool
  | .ld _ _ | .ldi _ _ | .ldr _ _ _ | .sti _ _ | .puts | .putsp => true
  | .trap vec => decide (vec = 0x22#8) || decide (vec = 0x24#8)
  | .addReg _ _ _ | .addImm _ _ _ | .andReg _ _ _ | .andImm _ _ _ | .not _ _ | .lea _ _ | .st _ _ | .str _ _ _
  | .br _ _ _ _ | .jmp _ | .ret | .jsr _ | .jsrr _ | .rti _ | .res _ | .getc | .out | .inKey | .halt => false

/-- The control transfers, which alone change the PC beyond its increment (R24). -/
def transfersControl : Instr → Bool
  | .br _ _ _ _ | .jmp _ | .ret | .jsr _ | .jsrr _ => true
  | .addReg _ _ _ | .addImm _ _ _ | .andReg _ _ _ | .andImm _ _ _ | .not _ _ | .ld _ _ | .ldi _ _ | .ldr _ _ _
  | .lea _ _ | .st _ _ | .sti _ _ | .str _ _ _ | .rti _ | .res _ | .trap _ | .getc | .out | .puts | .inKey | .putsp
  | .halt => false

/-! ## The rows of opcode_table.json (R98) -/

/-- `mask` of the instruction's row. -/
def rowMask : Instr → Word
  | .addReg _ _ _ | .addImm _ _ _ | .andReg _ _ _ | .andImm _ _ _ => 0xF020#16
  | .jsr _ | .jsrr _ => 0xF800#16
  | .ret => 0xF1C0#16
  | .getc | .out | .puts | .inKey | .putsp | .halt => 0xF0FF#16
  | .br _ _ _ _ | .ld _ _ | .st _ _ | .ldr _ _ _ | .str _ _ _ | .rti _ | .not _ _ | .ldi _ _ | .sti _ _ | .jmp _
  | .res _ | .lea _ _ | .trap _ => 0xF000#16

/-- `match` of the instruction's row. -/
def rowMatch : Instr → Word
  | .br _ _ _ _ => 0x0000#16
  | .addReg _ _ _ => 0x1000#16
  | .addImm _ _ _ => 0x1020#16
  | .ld _ _ => 0x2000#16
  | .st _ _ => 0x3000#16
  | .jsr _ => 0x4800#16
  | .jsrr _ => 0x4000#16
  | .andReg _ _ _ => 0x5000#16
  | .andImm _ _ _ => 0x5020#16
  | .ldr _ _ _ => 0x6000#16
  | .str _ _ _ => 0x7000#16
  | .rti _ => 0x8000#16
  | .not _ _ => 0x9000#16
  | .ldi _ _ => 0xA000#16
  | .sti _ _ => 0xB000#16
  | .jmp _ => 0xC000#16
  | .ret => 0xC1C0#16
  | .res _ => 0xD000#16
  | .lea _ _ => 0xE000#16
  | .trap _ => 0xF000#16
  | .getc => 0xF020#16
  | .out => 0xF021#16
  | .puts => 0xF022#16
  | .inKey => 0xF023#16
  | .putsp => 0xF024#16
  | .halt => 0xF025#16

/-- A word lies in the row of an instruction: `(word AND mask) = match` (R98). -/
def InRow (w : Word) (i : Instr) : Prop := w &&& rowMask i = rowMatch i

/-! ## The string loop as its pseudocode (R164, R166) -/

/-- The loop from address `a` in state `s` ends in state `t`: read a cell, write its bytes, and either the string ends
there or the loop goes on at the next address. -/
inductive StringRun (cell : Word → CellOutput) : Word → State → State → Prop where
  | stop (a : Word) (s : State) (h : (cell (memRead a s).1).last = true) :
      StringRun cell a s ((memRead a s).2.consoleWriteAll (cell (memRead a s).1).bytes)
  | more (a : Word) (s t : State) (h : (cell (memRead a s).1).last = false)
      (rest : StringRun cell (a + 1#16) ((memRead a s).2.consoleWriteAll (cell (memRead a s).1).bytes) t) :
      StringRun cell a s t

end Sys2Proof.Machine
end

