-- ==== Sys2Proof/Certificates/Slice0/Obligations.lean ====
section
/-! DEFINITION. The statements for the provers, taken from the numbered rules of spec/. In every statement about `exec`
the state `s` is the one an instruction runs in: after the fetch, with the PC incremented (rule R112). -/

open Sys2Proof Sys2Proof.Machine

/-! ## Encoding (30_encoding.md) -/

/-- R97: encoding then decoding recovers every operand field: for every well-formed instruction the instruction itself,
for JMP and TRAP the field whatever its value, and for every offset in the range of its width the offset. -/
def Obligations.EncodeThenDecodeRecoversInstruction : Prop :=
  (∀ i : Instr, i.wellFormed = true → decode (encode i) = i) ∧
  (∀ base : Reg, fieldSR1 (encode (.jmp base)) = base) ∧
  (∀ vec : BitVec 8, fieldVect8 (encode (.trap vec)) = vec) ∧
  (∀ x : Int, -16 ≤ x → x ≤ 15 → (sext (BitVec.ofInt 5 x)).toInt = x) ∧
  (∀ x : Int, -32 ≤ x → x ≤ 31 → (sext (BitVec.ofInt 6 x)).toInt = x) ∧
  (∀ x : Int, -256 ≤ x → x ≤ 255 → (sext (BitVec.ofInt 9 x)).toInt = x) ∧
  (∀ x : Int, -1024 ≤ x → x ≤ 1023 → (sext (BitVec.ofInt 11 x)).toInt = x)

/-- R89 and R98: every word decodes to a well-formed instruction in whose row of the table it lies, and it lies in no other
row but that of the base instruction its row refines (JMP for RET, TRAP for the six routines). The opcode map is the
spec's R88, from general knowledge (assumption 1); that the words of a refining row are its own instruction is the model's
choice (assumption 20). -/
def Obligations.TableRowsPartitionWords : Prop :=
  ∀ w : Word, (decode w).wellFormed = true ∧ InRow w (decode w) ∧
    ∀ i : Instr, InRow w i →
      rowMatch (decode w) = rowMatch i ∨ (rowMatch i = 0xC000#16 ∧ decode w = .ret) ∨
        (rowMatch i = 0xF000#16 ∧
          decode w ∈ [Instr.getc, Instr.out, Instr.puts, Instr.inKey, Instr.putsp, Instr.halt])

/-- R90: the bits the decoder does not look at have no effect on what a word decodes to: bits 4:3 of ADD and AND in
register form, bits 5:0 of NOT, bits 11:9 and 5:0 of JMP, bits 10:9 and 5:0 of JSRR, bits 11:8 of TRAP (the spec's decision
D7; assumption 21). -/
def Obligations.IgnoredBitsDoNotMatter : Prop :=
  ∀ v w : Word,
    ((Opcode.ofWord v = .add ∨ Opcode.ofWord v = .and) → v.getLsbD 5 = false → v &&& 0xFFE7#16 = w &&& 0xFFE7#16 →
      decode v = decode w) ∧
    (Opcode.ofWord v = .not → v &&& 0xFFC0#16 = w &&& 0xFFC0#16 → decode v = decode w) ∧
    (Opcode.ofWord v = .jmp → v &&& 0xF1C0#16 = w &&& 0xF1C0#16 → decode v = decode w) ∧
    (Opcode.ofWord v = .jsr → v.getLsbD 11 = false → v &&& 0xF9C0#16 = w &&& 0xF9C0#16 → decode v = decode w) ∧
    (Opcode.ofWord v = .trap → v &&& 0xF0FF#16 = w &&& 0xF0FF#16 → decode v = decode w)

/-- R86: sign extension of a field of width 5, 6, 9 or 11, by its value and as the same two's-complement number. -/
def Obligations.SignExtensionIsExact : Prop :=
  ∀ n : Nat, n = 5 ∨ n = 6 ∨ n = 9 ∨ n = 11 → ∀ v : BitVec n,
    (sext v).toNat = (if v.getLsbD (n - 1) then v.toNat + (65536 - 2 ^ n) else v.toNat) ∧ (sext v).toInt = v.toInt

/-- Words of 95_test_vectors.md, one or more per family, decode to the instructions they stand for there (the opcode map is
from general knowledge, assumption 1). -/
def Obligations.WorkedWordsDecode : Prop :=
  decode 0x1401#16 = .addReg .r2 .r0 .r1 ∧ decode 0x507E#16 = .andImm .r0 .r1 0b11110#5 ∧
  decode 0x92BF#16 = .not .r1 .r2 ∧ decode 0x0AFF#16 = .br true false true 0x0FF#9 ∧ decode 0xC0C0#16 = .jmp .r3 ∧
  decode 0xC1C0#16 = .ret ∧ decode 0x4FF6#16 = .jsr 0x7F6#11 ∧ decode 0x47FF#16 = .jsrr .r7 ∧
  decode 0xA002#16 = .ldi .r0 0x002#9 ∧ decode 0x62BF#16 = .ldr .r1 .r2 0x3F#6 ∧ decode 0x7B41#16 = .str .r5 .r5 0x01#6 ∧
  decode 0xE5FF#16 = .lea .r2 0x1FF#9 ∧ decode 0xFF25#16 = .halt ∧ decode 0xF0FF#16 = .trap 0xFF#8 ∧
  decode 0x8FFF#16 = .rti 0xFFF#12 ∧ decode 0xDABC#16 = .res 0xABC#12

/-! ## Reset and the instruction cycle (10_state.md, 40_instruction_cycle.md, 70_reset_and_hazards.md) -/

/-- R36 and R220: the reset values. That every cell reads as 0 is the default of `INIT_MEM` (assumption 3), and that
RUN = 1 is the end of the boot order (assumption 11). -/
def Obligations.ResetValues : Prop :=
  (∀ r : Reg, State.reset.getReg r = 0#16) ∧ State.reset.pc = 0x3000#16 ∧ State.reset.cond = .zero ∧
  State.reset.fault = ⟨.none, 0#16⟩ ∧ State.reset.outStream = [] ∧ (∀ a : Word, State.reset.cell a = 0#16) ∧
  State.reset.run = true ∧ State.reset.wait = none ∧ (State.powerOn []).run = false ∧
  boot [] [] = .next State.reset

/-- R110 to R113: a RUNNING engine that is not waiting fetches through the dispatcher, increments the PC and executes what
the word decodes to; from any address but `KBSR` the word is the cell at the PC and nothing but the PC has changed. That
the fetch goes through the dispatcher is the spec's decision D9 (assumption 18). -/
def Obligations.StepRunsDecodedInstruction : Prop :=
  ∀ s : State, s.run = true → s.wait = none →
    step s = exec (decode (memRead s.pc s).1) ((memRead s.pc s).2.setPc (s.pc + 1#16)) ∧
    ∀ i : Instr, s.pc ≠ Config.kbsrAddr → decode (s.cell s.pc) = i → step s = exec i (s.setPc (s.pc + 1#16))

/-- R111, R112, R25: the fetch yields the cell at the PC, refreshed first when that is `KBSR`, and the PC goes up by 1
modulo 65536; a fetch that takes a key is the poll of R53, one that finds none that of R54 (the spec's decision D9,
assumption 18). -/
def Obligations.FetchReadsAndIncrements : Prop :=
  ∀ s : State,
    (fetch s).2.pc.toNat = (s.pc.toNat + 1) % 65536 ∧
    (s.pc ≠ Config.kbsrAddr → (fetch s).1 = s.cell s.pc ∧ (fetch s).2 = s.setPc (fetch s).2.pc) ∧
    (s.pc = Config.kbsrAddr → ∀ k ks, s.sampleKeyboard.keys = k :: ks →
      (fetch s).1 = s.cell Config.kbsrAddr ||| 0x8000#16 ∧ (fetch s).2.cell Config.kbdrAddr = zext k ∧
      (fetch s).2.keys = ks) ∧
    (s.pc = Config.kbsrAddr → s.sampleKeyboard.keys = [] →
      (fetch s).1 = s.cell Config.kbsrAddr &&& 0x7FFF#16 ∧
      (fetch s).2.cell Config.kbdrAddr = s.cell Config.kbdrAddr ∧ (fetch s).2.keys = [])

/-- R116, R28: HALTED is terminal: however many steps follow, nothing changes. That a HALTED machine has steps at all, each
answering the same state, is the model's choice (assumption 10). -/
def Obligations.HaltedIsTerminal : Prop :=
  ∀ (k : Nat) (s : State), s.run = false → Sys2Proof.core.run k s = .next s

/-- R89, R194: every word is an instruction with an effect: no step is ever refused, and a step stops only in PUTS or PUTSP,
where the loop of the pseudocode from R0, after the fetch and the save of R7, has no end (assumption 9). -/
def Obligations.StepNeverRefuses : Prop :=
  (∀ (s : State) (r : Refusal), step s ≠ .refused r) ∧
  (∀ (s : State) (f : Fault), step s = .fault f →
    s.run = true ∧ s.wait = none ∧
      ((decode (fetch s).1 = .puts ∧ ¬∃ u, StringRun putsCell (s.getReg .r0) (saveReturn (fetch s).2) u) ∨
        (decode (fetch s).1 = .putsp ∧
          ¬∃ u, StringRun (putspCell s.params.putspRule) (s.getReg .r0) (saveReturn (fetch s).2) u))) ∧
  (∀ (i : Instr) (s : State) (f : Fault), exec i s = .fault f →
    ((i = .puts ∨ i = .trap 0x22#8) ∧ ¬∃ u, StringRun putsCell (s.getReg .r0) (saveReturn s) u) ∨
      ((i = .putsp ∨ i = .trap 0x24#8) ∧
        ¬∃ u, StringRun (putspCell s.params.putspRule) (s.getReg .r0) (saveReturn s) u))

/-! ## Flags -/

/-- R114: `setcc` by the value of the word, nothing but COND, and who calls it: after an instruction COND is the class of
what a flag-defining instruction left in its destination, and what it was before after every other instruction and after a
resumed GETC or IN. That no trap routine writes COND is the spec's decision D20 (assumption 25), that GETC and IN can be
resumed the model's choice (assumption 8). -/
def Obligations.FlagUpdate : Prop :=
  (∀ (v : Word) (s : State),
    (setcc v s).cond = (if 0x8000 ≤ v.toNat then .neg else if v.toNat = 0 then .zero else .pos) ∧
    setcc v s = { s with cond := (setcc v s).cond }) ∧
  (∀ (i : Instr) (s t : State), exec i s = .next t →
    t.cond = (match flagDest i with
      | some dr => signClass (t.getReg dr)
      | none => s.cond)) ∧
  (∀ (w : KeyWait) (s : State), (awaitKey w s).cond = s.cond)

/-- R27: COND is read only by BR: any other instruction does the same whatever COND is, a flag-defining one to the last
bit, the others leaving COND as it was. -/
def Obligations.CondReadOnlyByBranch : Prop :=
  ∀ (i : Instr) (c : Cond) (s : State), (∀ n z p off, i ≠ .br n z p off) →
    exec i { s with cond := c } =
      mapNext (fun t => if (flagDest i).isSome then t else { t with cond := c }) (exec i s)

/-! ## Memory and the dispatcher (20_memory.md) -/

/-- R58, R59, R65: a store puts the value at its address, `KBSR` and `KBDR` included, and changes nothing else. -/
def Obligations.StoredCellIsRead : Prop :=
  ∀ (a v b : Word) (s : State),
    (memWrite a v s).cell b = (if b = a then v else s.cell b) ∧ memWrite a v s = { s with mem := (memWrite a v s).mem }

/-- The model's own form of memory (assumption 2): two memories in canonical form that read alike everywhere are equal. -/
def Obligations.CanonicalMemoryIsUnique : Prop :=
  ∀ m n : Memory, m.wf → n.wf → (∀ a : Word, m.read a = n.read a) → m = n

/-- R53, with the queue as the environment has filled it by the time of the call (assumption 6); that the key is consumed
and is 8 bits wide is the spec's decision D10, D11 (assumption 16). -/
def Obligations.KbsrReadWithKey : Prop :=
  ∀ (s : State) (k : Byte) (ks : List Byte), s.sampleKeyboard.keys = k :: ks →
    let r := memRead Config.kbsrAddr s
    r.1.getLsbD 15 = true ∧ (∀ i < 15, r.1.getLsbD i = (s.cell Config.kbsrAddr).getLsbD i) ∧
    r.2.cell Config.kbsrAddr = r.1 ∧ (r.2.cell Config.kbdrAddr).toNat = k.toNat ∧ r.2.keys = ks ∧
    r.2.arrivals = s.sampleKeyboard.arrivals ∧ ReadFrame s r.2

/-- R54, with the queue as the environment has filled it by the time of the call (assumption 6). -/
def Obligations.KbsrReadWithoutKey : Prop :=
  ∀ s : State, s.sampleKeyboard.keys = [] →
    let r := memRead Config.kbsrAddr s
    r.1.getLsbD 15 = false ∧ (∀ i < 15, r.1.getLsbD i = (s.cell Config.kbsrAddr).getLsbD i) ∧
    r.2.cell Config.kbsrAddr = r.1 ∧ r.2.cell Config.kbdrAddr = s.cell Config.kbdrAddr ∧ r.2.keys = [] ∧
    r.2.arrivals = s.sampleKeyboard.arrivals ∧ ReadFrame s r.2

/-- R56: a read of any address but `KBSR` returns the cell and changes nothing, however often it is made. -/
def Obligations.OrdinaryReadChangesNothing : Prop :=
  ∀ (a : Word) (s : State), a ≠ 0xFE00#16 →
    memRead a s = (s.cell a, s) ∧ memRead a (memRead a s).2 = memRead a s

/-- R68: self-modifying code: a store over the next instruction, by ST, STI or STR with any offset, completes and is what the
next fetch yields and the next step executes. Where the next cell is `KBSR` that fetch polls the keyboard first, which is the
spec's decision D9 (assumption 18): then bits 14:0 of the word are the stored ones. -/
def Obligations.StoreIsSeenByNextFetch : Prop :=
  ∀ (s : State) (sr : Reg), s.run = true → s.wait = none →
    let u := (fetch s).2
    ((∃ off, decode (fetch s).1 = .st sr off ∧ pcRelative off u = u.pc) ∨
      (∃ off, decode (fetch s).1 = .sti sr off ∧ (indirect off u).1 = u.pc) ∨
      (∃ base off, decode (fetch s).1 = .str sr base off ∧ baseOffset base off u = u.pc)) →
    ∃ t, step s = .next t ∧ t.pc = s.pc + 1#16 ∧ t.cell t.pc = s.getReg sr ∧
      step t = exec (decode (fetch t).1) (fetch t).2 ∧
      (t.pc ≠ Config.kbsrAddr → (fetch t).1 = s.getReg sr ∧ (fetch t).2 = t.setPc (t.pc + 1#16)) ∧
      (t.pc = Config.kbsrAddr → ∀ i < 15, (fetch t).1.getLsbD i = (s.getReg sr).getLsbD i)

/-! ## ALU (41_alu.md) -/

/-- R120, R121: ADD in both forms: fields, encoding, the sum modulo 65536, the flags, nothing else; it always completes. The
opcode value is the spec's from general knowledge (assumption 1), the ignored bits 4:3 its decision D7 (assumption 21). -/
def Obligations.AddInstructions : Prop :=
  (∀ w : Word, w.extractLsb' 12 4 = 0b0001#4 → w.getLsbD 5 = false →
    ∃ dr sr1 sr2, decode w = .addReg dr sr1 sr2 ∧ dr.bits = w.extractLsb' 9 3 ∧ sr1.bits = w.extractLsb' 6 3 ∧
      sr2.bits = w.extractLsb' 0 3) ∧
  (∀ w : Word, w.extractLsb' 12 4 = 0b0001#4 → w.getLsbD 5 = true →
    ∃ dr sr1, decode w = .addImm dr sr1 (w.extractLsb' 0 5) ∧ dr.bits = w.extractLsb' 9 3 ∧
      sr1.bits = w.extractLsb' 6 3) ∧
  (∀ (dr sr1 sr2 : Reg) (s : State), ∃ v t, exec (.addReg dr sr1 sr2) s = .next t ∧
    v.toNat = ((s.getReg sr1).toNat + (s.getReg sr2).toNat) % 65536 ∧ WritesFlagged dr v s t) ∧
  (∀ (dr sr1 : Reg) (imm : BitVec 5) (s : State), ∃ v t, exec (.addImm dr sr1 imm) s = .next t ∧
    v.toNat = ((s.getReg sr1).toNat + (sext imm).toNat) % 65536 ∧ WritesFlagged dr v s t)

/-- R122, R123: AND in both forms, bit by bit, the immediate sign-extended; it always completes. The opcode value is the
spec's from general knowledge (assumption 1), the ignored bits 4:3 its decision D7 (assumption 21). -/
def Obligations.AndInstructions : Prop :=
  (∀ w : Word, w.extractLsb' 12 4 = 0b0101#4 → w.getLsbD 5 = false →
    ∃ dr sr1 sr2, decode w = .andReg dr sr1 sr2 ∧ dr.bits = w.extractLsb' 9 3 ∧ sr1.bits = w.extractLsb' 6 3 ∧
      sr2.bits = w.extractLsb' 0 3) ∧
  (∀ w : Word, w.extractLsb' 12 4 = 0b0101#4 → w.getLsbD 5 = true →
    ∃ dr sr1, decode w = .andImm dr sr1 (w.extractLsb' 0 5) ∧ dr.bits = w.extractLsb' 9 3 ∧
      sr1.bits = w.extractLsb' 6 3) ∧
  (∀ (dr sr1 sr2 : Reg) (s : State), ∃ v t, exec (.andReg dr sr1 sr2) s = .next t ∧
    (∀ i < 16, v.getLsbD i = ((s.getReg sr1).getLsbD i && (s.getReg sr2).getLsbD i)) ∧ WritesFlagged dr v s t) ∧
  (∀ (dr sr1 : Reg) (imm : BitVec 5) (s : State), ∃ v t, exec (.andImm dr sr1 imm) s = .next t ∧
    (∀ i < 16, v.getLsbD i = ((s.getReg sr1).getLsbD i && imm.getLsbD (min i 4))) ∧ WritesFlagged dr v s t)

/-- R124: NOT: every bit inverted, that is 0xFFFF minus the source; it always completes. The opcode value is the spec's from
general knowledge (assumption 1), that bits 5:0 are ignored its decision D7 (assumption 21). -/
def Obligations.NotInstruction : Prop :=
  (∀ w : Word, w.extractLsb' 12 4 = 0b1001#4 →
    ∃ dr sr1, decode w = .not dr sr1 ∧ dr.bits = w.extractLsb' 9 3 ∧ sr1.bits = w.extractLsb' 6 3) ∧
  (∀ (dr sr1 : Reg) (s : State), ∃ v t, exec (.not dr sr1) s = .next t ∧
    v.toNat = 0xFFFF - (s.getReg sr1).toNat ∧ WritesFlagged dr v s t)

/-! ## Control transfer (42_control.md) -/

/-- R130, R131: BR, with the places of n, z, p that the spec takes from general knowledge (assumption 1). -/
def Obligations.BranchInstruction : Prop :=
  (∀ w : Word, w.extractLsb' 12 4 = 0b0000#4 →
    decode w = .br (w.getLsbD 11) (w.getLsbD 10) (w.getLsbD 9) (w.extractLsb' 0 9)) ∧
  (∀ (n z p : Bool) (off : BitVec 9) (s : State), ∃ t, exec (.br n z p off) s = .next t ∧
    JumpsTo
      (if (n = true ∧ s.cond = .neg) ∨ (z = true ∧ s.cond = .zero) ∨ (p = true ∧ s.cond = .pos)
        then s.pc + sext off else s.pc) [] 0#16 s t)

/-- R93: the words 0x0000 to 0x01FF change nothing but the PC increment. -/
def Obligations.NopWords : Prop :=
  ∀ w : Word, w.toNat < 0x200 → ∀ s : State, exec (decode w) s = .next s

/-- R132, R133: JMP and RET. The opcode value is the spec's from general knowledge (assumption 1), the ignored bits its
decision D7 (assumption 21); that RET is a constructor of its own is the model's choice (assumption 20). -/
def Obligations.JumpAndReturn : Prop :=
  (∀ w : Word, w.extractLsb' 12 4 = 0b1100#4 → w.extractLsb' 6 3 ≠ 0b111#3 →
    ∃ base, decode w = .jmp base ∧ base.bits = w.extractLsb' 6 3) ∧
  (∀ w : Word, w.extractLsb' 12 4 = 0b1100#4 → w.extractLsb' 6 3 = 0b111#3 → decode w = .ret) ∧
  decode 0xC1C0#16 = .ret ∧ encode .ret = 0xC1C0#16 ∧
  (∀ (base : Reg) (s : State), ∃ t, exec (.jmp base) s = .next t ∧ JumpsTo (s.getReg base) [] 0#16 s t) ∧
  (∀ s : State, ∃ t, exec .ret s = .next t ∧ JumpsTo (s.getReg .r7) [] 0#16 s t)

/-- R134: JSR. The opcode value and the place of PCoffset11 are the spec's from general knowledge (assumption 1). -/
def Obligations.JsrInstruction : Prop :=
  (∀ w : Word, w.extractLsb' 12 4 = 0b0100#4 → w.getLsbD 11 = true → decode w = .jsr (w.extractLsb' 0 11)) ∧
  (∀ (off : BitVec 11) (s : State), ∃ t, exec (.jsr off) s = .next t ∧ JumpsTo (s.pc + sext off) [.r7] s.pc s t)

/-- R135: JSRR writes R7 before it reads BaseR, so JSRR R7 goes to the next instruction (90_conflicts.md C10, the spec's
decision D28; assumption 15). -/
def Obligations.JsrrInstruction : Prop :=
  (∀ w : Word, w.extractLsb' 12 4 = 0b0100#4 → w.getLsbD 11 = false →
    ∃ base, decode w = .jsrr base ∧ base.bits = w.extractLsb' 6 3) ∧
  (∀ (base : Reg) (s : State), ∃ t, exec (.jsrr base) s = .next t ∧
    JumpsTo (if base = .r7 then s.pc else s.getReg base) [.r7] s.pc s t)

/-- R24: only BR, JMP, RET, JSR and JSRR change the PC beyond its increment; every other instruction that completes, a fatal
condition among them, leaves it, and so does a resumed GETC or IN. -/
def Obligations.PcChangedOnlyByTransfers : Prop :=
  (∀ (i : Instr) (s t : State), transfersControl i = false → exec i s = .next t → t.pc = s.pc) ∧
  (∀ (w : KeyWait) (s : State), (awaitKey w s).pc = s.pc)

/-! ## Loads and stores (43_load_store.md) -/

/-- R140: LD reads through the dispatcher at the incremented PC plus the offset; unless that is `KBSR` the value is the cell
and nothing but DR and COND changes. The opcode value and the
place of PCoffset9 are the spec's from general knowledge (assumption 1). -/
def Obligations.LoadPcRelative : Prop :=
  (∀ w : Word, w.extractLsb' 12 4 = 0b0010#4 →
    ∃ dr, decode w = .ld dr (w.extractLsb' 0 9) ∧ dr.bits = w.extractLsb' 9 3) ∧
  (∀ (dr : Reg) (off : BitVec 9) (s : State), ∃ v u t, exec (.ld dr off) s = .next t ∧
    memRead (s.pc + sext off) s = (v, u) ∧ WritesFlagged dr v u t ∧ ReadFrame s u ∧
    (s.pc + sext off ≠ Config.kbsrAddr → v = s.cell (s.pc + sext off) ∧ u = s))

/-- R141: LDI reads the pointer, then the datum, each through the dispatcher. The opcode value and the
place of PCoffset9 are the spec's from general knowledge (assumption 1). -/
def Obligations.LoadIndirect : Prop :=
  (∀ w : Word, w.extractLsb' 12 4 = 0b1010#4 →
    ∃ dr, decode w = .ldi dr (w.extractLsb' 0 9) ∧ dr.bits = w.extractLsb' 9 3) ∧
  (∀ (dr : Reg) (off : BitVec 9) (s : State), ∃ ptr u v u' t, exec (.ldi dr off) s = .next t ∧
    memRead (s.pc + sext off) s = (ptr, u) ∧ memRead ptr u = (v, u') ∧ WritesFlagged dr v u' t ∧ ReadFrame s u' ∧
    (s.pc + sext off ≠ Config.kbsrAddr → ptr = s.cell (s.pc + sext off) ∧ u = s) ∧
    (s.pc + sext off ≠ Config.kbsrAddr → ptr ≠ Config.kbsrAddr → v = s.cell ptr ∧ u' = s))

/-- R142: LDR, with the place of offset6 that the spec takes from general knowledge (assumption 1); DR may be BaseR. -/
def Obligations.LoadBaseOffset : Prop :=
  (∀ w : Word, w.extractLsb' 12 4 = 0b0110#4 →
    ∃ dr base, decode w = .ldr dr base (w.extractLsb' 0 6) ∧ dr.bits = w.extractLsb' 9 3 ∧
      base.bits = w.extractLsb' 6 3) ∧
  (∀ (dr base : Reg) (off : BitVec 6) (s : State), ∃ v u t, exec (.ldr dr base off) s = .next t ∧
    memRead (s.getReg base + sext off) s = (v, u) ∧ WritesFlagged dr v u t ∧ ReadFrame s u ∧
    (s.getReg base + sext off ≠ Config.kbsrAddr → v = s.cell (s.getReg base + sext off) ∧ u = s))

/-- R143: LEA computes the address, makes no read, and sets the flags. The opcode value and the
place of PCoffset9 are the spec's from general knowledge (assumption 1). -/
def Obligations.LoadEffectiveAddress : Prop :=
  (∀ w : Word, w.extractLsb' 12 4 = 0b1110#4 →
    ∃ dr, decode w = .lea dr (w.extractLsb' 0 9) ∧ dr.bits = w.extractLsb' 9 3) ∧
  (∀ (dr : Reg) (off : BitVec 9) (s : State), ∃ v t, exec (.lea dr off) s = .next t ∧
    v.toNat = (s.pc.toNat + (sext off).toNat) % 65536 ∧ WritesFlagged dr v s t)

/-- R144: ST. The opcode value and the
place of PCoffset9 are the spec's from general knowledge (assumption 1). -/
def Obligations.StorePcRelative : Prop :=
  (∀ w : Word, w.extractLsb' 12 4 = 0b0011#4 →
    ∃ sr, decode w = .st sr (w.extractLsb' 0 9) ∧ sr.bits = w.extractLsb' 9 3) ∧
  (∀ (sr : Reg) (off : BitVec 9) (s : State), ∃ t, exec (.st sr off) s = .next t ∧
    StoresCell (pcRelative off s) (s.getReg sr) s t ∧
    (pcRelative off s).toNat = (s.pc.toNat + (sext off).toNat) % 65536)

/-- R145: STI reads its pointer through the dispatcher, then stores there. The opcode value and the
place of PCoffset9 are the spec's from general knowledge (assumption 1). -/
def Obligations.StoreIndirect : Prop :=
  (∀ w : Word, w.extractLsb' 12 4 = 0b1011#4 →
    ∃ sr, decode w = .sti sr (w.extractLsb' 0 9) ∧ sr.bits = w.extractLsb' 9 3) ∧
  (∀ (sr : Reg) (off : BitVec 9) (s : State), ∃ t, exec (.sti sr off) s = .next t ∧
    indirect off s = memRead (s.pc + sext off) s ∧
    StoresCell (indirect off s).1 (s.getReg sr) (indirect off s).2 t ∧ ReadFrame s (indirect off s).2 ∧
    (s.pc + sext off ≠ Config.kbsrAddr → indirect off s = (s.cell (s.pc + sext off), s)))

/-- R146: STR, with the place of offset6 that the spec takes from general knowledge (assumption 1); SR may be BaseR. -/
def Obligations.StoreBaseOffset : Prop :=
  (∀ w : Word, w.extractLsb' 12 4 = 0b0111#4 →
    ∃ sr base, decode w = .str sr base (w.extractLsb' 0 6) ∧ sr.bits = w.extractLsb' 9 3 ∧
      base.bits = w.extractLsb' 6 3) ∧
  (∀ (sr base : Reg) (off : BitVec 6) (s : State), ∃ t, exec (.str sr base off) s = .next t ∧
    StoresCell (baseOffset base off s) (s.getReg sr) s t ∧
    (baseOffset base off s).toNat = ((s.getReg base).toNat + (sext off).toNat) % 65536)

/-! ## TRAP and its routines (44_trap.md) -/

/-- R160, R161, R192, R193: a TRAP with any other vector has saved R7, does no I/O and ends the run; the fault record and
the state left are the spec's decisions D19 and D21 (assumptions 13 and 14). -/
def Obligations.UnknownTrapVector : Prop :=
  ∀ (vec : BitVec 8) (s : State), vec.toNat < 0x20 ∨ 0x25 < vec.toNat →
    ∃ t, exec (.trap vec) s = .next t ∧ t.run = false ∧ t.fault.cause = .invalidTrapVector ∧
      t.fault.info.toNat = vec.toNat ∧ TrapFrame [] s t ∧ t.keys = s.keys ∧ t.arrivals = s.arrivals ∧
      t.outStream = s.outStream ∧ t.flushed = s.flushed ∧ t.terminalRestores = s.terminalRestores + 1 ∧ t.wait = s.wait

/-- R160, R92: TRAP with a recognised vector is the routine of that vector, word and instruction; and it completes: with
a key for x20 and x23, on an empty string for x22 and x24, always for x21 and x25. That R7 is saved is the spec's decision
D19 (assumption 14). -/
def Obligations.RecognisedTrapVectors : Prop :=
  (∀ s : State, exec (.trap 0x20#8) s = exec .getc s ∧ exec (.trap 0x21#8) s = exec .out s ∧
    exec (.trap 0x22#8) s = exec .puts s ∧ exec (.trap 0x23#8) s = exec .inKey s ∧
    exec (.trap 0x24#8) s = exec .putsp s ∧ exec (.trap 0x25#8) s = exec .halt s) ∧
  (∀ w : Word, Opcode.ofWord w = .trap → ∀ s : State, exec (decode w) s = exec (.trap (w.extractLsb' 0 8)) s) ∧
  (∀ (s : State) (k : Byte) (ks : List Byte), s.sampleKeyboard.keys = k :: ks →
    (∃ t, exec (.trap 0x20#8) s = .next t ∧ t.getReg .r0 = zext k ∧ t.keys = ks ∧ t.wait = none ∧ TrapFrame [.r0] s t) ∧
    (∃ t, exec (.trap 0x23#8) s = .next t ∧ t.getReg .r0 = zext k ∧ t.keys = ks ∧ t.wait = none ∧ TrapFrame [.r0] s t)) ∧
  (∀ s : State, s.getReg .r0 ≠ Config.kbsrAddr → s.cell (s.getReg .r0) = 0#16 →
    (∃ t, exec (.trap 0x22#8) s = .next t ∧ t.outStream = s.outStream ∧ TrapFrame [] s t) ∧
    (∃ t, exec (.trap 0x24#8) s = .next t ∧ t.outStream = s.outStream ∧ TrapFrame [] s t)) ∧
  (∀ s : State, ∃ t, exec (.trap 0x21#8) s = .next t ∧ t.outStream = s.outStream ++ [lowByte (s.getReg .r0)] ∧
    TrapFrame [] s t) ∧
  (∀ s : State, ∃ t, exec (.trap 0x25#8) s = .next t ∧ t.run = false ∧ t.fault = s.fault ∧ TrapFrame [] s t)

/-- R162: GETC with a key available at the call (assumption 6) completes; with none it is left waiting, all else kept
(assumption 8). In this and in the next routines R7 is saved by the spec's decision D19 and COND left by D20 (assumptions
14 and 25). -/
def Obligations.GetcRoutine : Prop :=
  (∀ (s : State) (k : Byte) (ks : List Byte), s.sampleKeyboard.keys = k :: ks →
    ∃ t, exec .getc s = .next t ∧ (t.getReg .r0).toNat = k.toNat ∧ TrapFrame [.r0] s t ∧ t.keys = ks ∧
      t.arrivals = s.sampleKeyboard.arrivals ∧ t.outStream = s.outStream ∧ t.flushed = s.flushed ∧
      t.terminalRestores = s.terminalRestores ∧ t.run = s.run ∧ t.fault = s.fault ∧ t.wait = none) ∧
  (∀ s : State, s.sampleKeyboard.keys = [] →
    ∃ t, exec .getc s = .next t ∧ TrapFrame [] s t ∧ t.keys = [] ∧ t.arrivals = s.sampleKeyboard.arrivals ∧
      t.outStream = s.outStream ∧ t.flushed = s.flushed ∧ t.terminalRestores = s.terminalRestores ∧ t.run = s.run ∧
      t.fault = s.fault ∧ t.wait = some .getc)

/-- R163: OUT writes the low byte of R0 and flushes (R7 and COND: assumptions 14 and 25). -/
def Obligations.OutRoutine : Prop :=
  (∀ w : Word, w &&& 0xF0FF#16 = 0xF021#16 → decode w = .out) ∧
  (∀ s : State, ∃ t b, exec .out s = .next t ∧ t.outStream = s.outStream ++ [b] ∧
    b.toNat = (s.getReg .r0).toNat % 256 ∧ t.flushed = t.outStream.length ∧ TrapFrame [] s t ∧ t.keys = s.keys ∧
    t.arrivals = s.arrivals ∧ t.terminalRestores = s.terminalRestores ∧ SameEngine s t)

/-- R164: PUTS on a string of `n` cells that does not run over `KBSR`: the low byte of each, in order, then the flush; the
low byte is the spec's decision D13 (assumption 24; R7 and COND: assumptions 14 and 25). -/
def Obligations.PutsRoutine : Prop :=
  ∀ (s : State) (n : Nat),
    (∀ i ≤ n, s.getReg .r0 + BitVec.ofNat 16 i ≠ Config.kbsrAddr) →
    (∀ i < n, s.cell (s.getReg .r0 + BitVec.ofNat 16 i) ≠ 0#16) →
    s.cell (s.getReg .r0 + BitVec.ofNat 16 n) = 0#16 →
    ∃ t, exec .puts s = .next t ∧
      t.outStream = s.outStream ++
        (List.range n).map (fun i => (s.cell (s.getReg .r0 + BitVec.ofNat 16 i)).extractLsb' 0 8) ∧
      t.flushed = t.outStream.length ∧ TrapFrame [] s t ∧ t.keys = s.keys ∧ t.arrivals = s.arrivals ∧
      t.terminalRestores = s.terminalRestores ∧ SameEngine s t

/-- R165: IN writes the prompt, reads a key, echoes it and stores it; with no key it is left waiting with the prompt
visible (the spec's decisions D16 to D18, assumptions 8 and 26; R7 and COND: assumptions 14 and 25). -/
def Obligations.InRoutine : Prop :=
  (∀ (s : State) (k : Byte) (ks : List Byte), s.sampleKeyboard.keys = k :: ks →
    ∃ t, exec .inKey s = .next t ∧ (t.getReg .r0).toNat = k.toNat ∧ TrapFrame [.r0] s t ∧ t.keys = ks ∧
      t.arrivals = s.sampleKeyboard.arrivals ∧ t.outStream = s.outStream ++ s.params.inPrompt ++ [k] ∧
      t.flushed = t.outStream.length ∧ t.terminalRestores = s.terminalRestores ∧ t.run = s.run ∧ t.fault = s.fault ∧
      t.wait = none) ∧
  (∀ s : State, s.sampleKeyboard.keys = [] →
    ∃ t, exec .inKey s = .next t ∧ TrapFrame [] s t ∧ t.keys = [] ∧ t.arrivals = s.sampleKeyboard.arrivals ∧
      t.outStream = s.outStream ++ s.params.inPrompt ∧ t.flushed = t.outStream.length ∧
      t.terminalRestores = s.terminalRestores ∧ t.run = s.run ∧ t.fault = s.fault ∧ t.wait = some .inKey)

/-- R166: PUTSP on a string of `n` full cells that does not run over `KBSR`. Under `zero_byte` the cell after them has a
zero byte and its low byte is written unless it is that byte; under `zero_cell` the string ends at a zero cell and every
non-zero byte, and a zero low byte, before it is written (the spec's decision D14, assumption 17; R7 and COND: assumptions
14 and 25). -/
def Obligations.PutspRoutine : Prop :=
  ∀ (s : State) (n : Nat),
    (∀ i ≤ n, s.getReg .r0 + BitVec.ofNat 16 i ≠ Config.kbsrAddr) →
    let cell := fun i : Nat => s.cell (s.getReg .r0 + BitVec.ofNat 16 i)
    let lo := fun i : Nat => (cell i).extractLsb' 0 8
    let hi := fun i : Nat => (cell i).extractLsb' 8 8
    (s.params.putspRule = .zeroByte → (∀ i < n, lo i ≠ 0#8 ∧ hi i ≠ 0#8) → (lo n = 0#8 ∨ hi n = 0#8) →
      ∃ t, exec .putsp s = .next t ∧
        t.outStream = s.outStream ++ (List.range n).flatMap (fun i => [lo i, hi i]) ++
          (if lo n = 0#8 then [] else [lo n]) ∧
        t.flushed = t.outStream.length ∧ TrapFrame [] s t ∧ t.keys = s.keys ∧ t.arrivals = s.arrivals ∧
        t.terminalRestores = s.terminalRestores ∧ SameEngine s t) ∧
    (s.params.putspRule = .zeroCell → (∀ i < n, cell i ≠ 0#16) → cell n = 0#16 →
      ∃ t, exec .putsp s = .next t ∧
        t.outStream = s.outStream ++
          (List.range n).flatMap (fun i => if hi i = 0#8 then [lo i] else [lo i, hi i]) ∧
        t.flushed = t.outStream.length ∧ TrapFrame [] s t ∧ t.keys = s.keys ∧ t.arrivals = s.arrivals ∧
        t.terminalRestores = s.terminalRestores ∧ SameEngine s t)

/-- 93_implementation_defined.md U5: the two readings of `PUTSP_RULE` write the same bytes on a well-formed packed string. -/
def Obligations.PutspReadingsAgree : Prop :=
  ∀ (s : State) (n : Nat),
    let cell := fun i : Nat => s.cell (s.getReg .r0 + BitVec.ofNat 16 i)
    (∀ i ≤ n, s.getReg .r0 + BitVec.ofNat 16 i ≠ Config.kbsrAddr) →
    (∀ i < n, (cell i).extractLsb' 0 8 ≠ 0#8 ∧ (cell i).extractLsb' 8 8 ≠ 0#8) →
    (cell n = 0#16 ∨ ((cell n).extractLsb' 0 8 ≠ 0#8 ∧ (cell n).extractLsb' 8 8 = 0#8 ∧
      s.getReg .r0 + BitVec.ofNat 16 (n + 1) ≠ Config.kbsrAddr ∧ cell (n + 1) = 0#16)) →
    ∃ t u,
      exec .putsp { s with params := { s.params with putspRule := .zeroByte } } = .next t ∧
      exec .putsp { s with params := { s.params with putspRule := .zeroCell } } = .next u ∧
      t.outStream = u.outStream

/-- R164, R166, R116, U6: PUTS and PUTSP answer exactly the end of the pseudocode's loop, over every memory, every queue
and every schedule of arrivals, `KBSR` among the cells or not; and they stop exactly when that loop never ends
(assumption 9). -/
def Obligations.StringRoutinesFollowPseudocode : Prop :=
  ∀ s : State,
    (∀ t, exec .puts s = .next t ↔
      ∃ u, StringRun putsCell (s.getReg .r0) (saveReturn s) u ∧ t = u.consoleFlush) ∧
    (exec .puts s = .fault .unterminatedString ↔ ¬∃ u, StringRun putsCell (s.getReg .r0) (saveReturn s) u) ∧
    (∀ t, exec .putsp s = .next t ↔
      ∃ u, StringRun (putspCell s.params.putspRule) (s.getReg .r0) (saveReturn s) u ∧ t = u.consoleFlush) ∧
    (exec .putsp s = .fault .unterminatedString ↔
      ¬∃ u, StringRun (putspCell s.params.putspRule) (s.getReg .r0) (saveReturn s) u)

/-- R167: HALT writes the message, flushes, restores the terminal and clears RUN; the fault record stays, so after a run
with no fault the exit status is 0 (the spec's decisions D16 and D29; R7 and COND: assumptions 14 and 25). -/
def Obligations.HaltRoutine : Prop :=
  ∀ s : State, ∃ t, exec .halt s = .next t ∧ t.run = false ∧ t.fault = s.fault ∧ t.wait = s.wait ∧
    t.outStream = s.outStream ++ s.params.haltMsg ∧ t.flushed = t.outStream.length ∧
    t.terminalRestores = s.terminalRestores + 1 ∧ TrapFrame [] s t ∧ t.keys = s.keys ∧ t.arrivals = s.arrivals ∧
    (s.fault.cause = .none → GoodEnd t ∧ exitStatus t = some 0)

/-- R118, R207: a wait with no key changes nothing but what the environment does to the keyboard; a key ends it, and the
routine completes as if the key had been there (assumption 8). -/
def Obligations.WaitEndsOnlyWithKey : Prop :=
  ∀ (s : State) (w : KeyWait), s.run = true → s.wait = some w →
    (s.sampleKeyboard.keys = [] →
      step s = .next s.sampleKeyboard ∧ s.sampleKeyboard.wait = some w ∧ (s.arrivals = [] → step s = .next s)) ∧
    (∀ k ks, s.sampleKeyboard.keys = k :: ks →
      ∃ t, step s = .next t ∧ (t.getReg .r0).toNat = k.toNat ∧ SameRegsBut [.r0] s t ∧ t.wait = none ∧ t.keys = ks ∧
        t.arrivals = s.sampleKeyboard.arrivals ∧ t.pc = s.pc ∧ t.cond = s.cond ∧ SameCells s t ∧ t.run = true ∧
        t.fault = s.fault ∧ t.params = s.params ∧ t.terminalRestores = s.terminalRestores ∧
        (w = .getc → t.outStream = s.outStream ∧ t.flushed = s.flushed) ∧
        (w = .inKey → t.outStream = s.outStream ++ [k] ∧ t.flushed = t.outStream.length))

/-! ## The reserved opcodes (45_reserved.md, 60_exceptions.md) -/

/-- R180, R181, R191, R193: RTI and RES record the whole word, restore the terminal, clear RUN, and change nothing else;
the record and the state left are the spec's decision D21 (assumption 13). -/
def Obligations.ReservedOpcodes : Prop :=
  (∀ w : Word, w.extractLsb' 12 4 = 0b1000#4 → ∃ low, decode w = .rti low ∧ w = 0b1000#4 ++ low) ∧
  (∀ w : Word, w.extractLsb' 12 4 = 0b1101#4 → ∃ low, decode w = .res low ∧ w = 0b1101#4 ++ low) ∧
  (∀ (low : BitVec 12) (s : State), ∃ t, exec (.rti low) s = .next t ∧ t.run = false ∧
    t.fault.cause = .invalidOpcode ∧ t.fault.info.toNat = 0x8000 + low.toNat ∧
    t.terminalRestores = s.terminalRestores + 1 ∧ SameRegsBut [] s t ∧ t.pc = s.pc ∧ t.cond = s.cond ∧ SameCells s t ∧
    t.keys = s.keys ∧ t.arrivals = s.arrivals ∧ t.outStream = s.outStream ∧ t.flushed = s.flushed ∧ t.wait = s.wait ∧
    t.params = s.params) ∧
  (∀ (low : BitVec 12) (s : State), ∃ t, exec (.res low) s = .next t ∧ t.run = false ∧
    t.fault.cause = .invalidOpcode ∧ t.fault.info.toNat = 0xD000 + low.toNat ∧
    t.terminalRestores = s.terminalRestores + 1 ∧ SameRegsBut [] s t ∧ t.pc = s.pc ∧ t.cond = s.cond ∧ SameCells s t ∧
    t.keys = s.keys ∧ t.arrivals = s.arrivals ∧ t.outStream = s.outStream ∧ t.flushed = s.flushed ∧ t.wait = s.wait ∧
    t.params = s.params)

/-! ## Rules over the whole machine -/

/-- The invariant `StateInv` (memory canonical; a fault recorded only by a fatal condition and only when HALTED; the terminal
restored at most once; a wait only inside a TRAP of a RUNNING engine; `EXIT_FAULT` nonzero) is kept by every step. The form
of memory, the wait and the fault record are the model's and the spec's choices (assumptions 2, 8 and 13). -/
def Obligations.InvariantKeptByStep : Prop :=
  ∀ s t : State, StateInv s → step s = .next t → StateInv t

/-- The invariant holds right after reset, before the boot, and in every state the boot hands over, whatever the initial
memory. -/
def Obligations.InvariantAtStart : Prop :=
  StateInv State.reset ∧
  ∀ init : Memory, init.wf → StateInv (State.powerOn init) ∧
    ∀ (ims : List Image) (s : State), boot init ims = .next s → StateInv s

/-- R22: no instruction writes a general register but those its row of the table names; a resumed GETC or IN writes R0. -/
def Obligations.RegisterWriteTable : Prop :=
  (∀ (i : Instr) (s t : State), exec i s = .next t → SameRegsBut (destRegs i) s t) ∧
  (∀ (w : KeyWait) (s : State), SameRegsBut [.r0] s (awaitKey w s))

/-- R22: no instruction reads a general register but those its row of the table names: with another value in a register it
does not read, either the outcome is the same to the last bit (the register was overwritten), or it is the same but for that
register, which still holds the other value; and where the instruction does not write the register either, the second. -/
def Obligations.RegisterReadTable : Prop :=
  ∀ (i : Instr) (r : Reg) (v : Word) (s : State), r ∉ sourceRegs i →
    (exec i (s.setReg r v) = exec i s ∨ exec i (s.setReg r v) = mapNext (fun t => t.setReg r v) (exec i s)) ∧
    (r ∉ destRegs i → exec i (s.setReg r v) = mapNext (fun t => t.setReg r v) (exec i s))

/-- R57, R58, R65: memory is written by ST, STI and STR alone, but for the two device cells, which a read may refresh; an
instruction that makes no read and no write of memory leaves every cell. -/
def Obligations.MemoryWrittenOnlyByStores : Prop :=
  (∀ (i : Instr) (s t : State), writesMemory i = false → exec i s = .next t →
    ∀ a : Word, a ≠ Config.kbsrAddr → a ≠ Config.kbdrAddr → t.cell a = s.cell a) ∧
  (∀ (i : Instr) (s t : State), writesMemory i = false → readsMemory i = false → exec i s = .next t → SameCells s t) ∧
  (∀ (w : KeyWait) (s : State), SameCells s (awaitKey w s))

/-- R169, R35: the console output stream only grows, and only by the five routines that write to it. -/
def Obligations.ConsoleWrittenOnlyByRoutines : Prop :=
  (∀ s t : State, step s = .next t → s.outStream <+: t.outStream) ∧
  (∀ (i : Instr) (s t : State), writesConsole i = false → exec i s = .next t →
    t.outStream = s.outStream ∧ t.flushed = s.flushed)

/-- R35: keys leave the queue at its head only, none is lost, made or reordered: what is still to come after a step is a
suffix of what was before it, and only a poll, GETC or IN takes any. -/
def Obligations.KeysLeaveInOrder : Prop :=
  (∀ s t : State, step s = .next t →
    ∃ taken, s.keys ++ s.arrivals.flatten = taken ++ (t.keys ++ t.arrivals.flatten)) ∧
  (∀ (i : Instr) (s t : State), readsMemory i = false → i ≠ .getc → i ≠ .inKey → i ≠ .trap 0x20#8 →
    i ≠ .trap 0x23#8 → exec i s = .next t → t.keys = s.keys ∧ t.arrivals = s.arrivals)

/-- R28, R29, R190: RUN is never set, and is cleared only by HALT, which records no fault, by a reserved opcode, which
records the word fetched, or by a TRAP with an unrecognised vector; the fault record changes in no other way. -/
def Obligations.RunEndsOnlyByHaltOrFatal : Prop :=
  ∀ s t : State, step s = .next t →
    (s.run = false → t = s) ∧
    (s.run = true → t.run = true → t.fault = s.fault) ∧
    (s.run = true → t.run = false → s.wait = none ∧
      ((decode (fetch s).1 = .halt ∧ t.fault = s.fault) ∨
        ((Opcode.ofWord (fetch s).1 = .rti ∨ Opcode.ofWord (fetch s).1 = .res) ∧
          t.fault = ⟨.invalidOpcode, (fetch s).1⟩) ∨
        (∃ vec, decode (fetch s).1 = .trap vec ∧ t.fault = ⟨.invalidTrapVector, zext vec⟩)))

/-- R7 and assumption 4: no step writes the open parameters. -/
def Obligations.ParametersNeverWritten : Prop :=
  ∀ s t : State, step s = .next t → t.params = s.params

/-- R196: no exit status while RUNNING; 0 after an end with no fault; after a fatal condition `EXIT_FAULT`, which is nonzero
in every state of the invariant (the spec's decision D22, assumption 5). -/
def Obligations.ExitStatusRule : Prop :=
  ∀ s : State, StateInv s →
    (s.run = true → exitStatus s = none) ∧ (GoodEnd s → exitStatus s = some 0) ∧
    (Faulted s → ∃ n, exitStatus s = some n ∧ n ≠ 0)

/-! ## Images and the boot (70_reset_and_hazards.md) -/

/-- R223, R225: loading an image that fits puts its words in consecutive cells from its origin and changes nothing else (the
bound is the spec's decision D24, assumption 23). -/
def Obligations.ImageWordsAreStored : Prop :=
  ∀ (im : Image) (s : State), im.origin.toNat + im.words.length ≤ 65536 →
    let t := loadWords im.origin im.words s
    (∀ (i : Nat) (h : i < im.words.length), t.cell (im.origin + BitVec.ofNat 16 i) = im.words[i]) ∧
    (∀ a : Word, (a.toNat < im.origin.toNat ∨ im.origin.toNat + im.words.length ≤ a.toNat) → t.cell a = s.cell a) ∧
    t = { s with mem := t.mem }

/-- R221, R222, R225: from any initial memory the boot loads the images in order, a later over an earlier, and starts at
0x3000 whatever the origins; one image that does not fit and nothing is executed (the spec's decisions D24 and D31, assumptions 11 and 23). -/
def Obligations.BootLoadsAndStarts : Prop :=
  (∀ (init : Memory) (ims : List Image), (∀ im ∈ ims, im.origin.toNat + im.words.length ≤ 65536) →
    boot init ims = .next { State.reset with
      mem := (ims.foldl (fun s im => loadWords im.origin im.words s) { State.reset with mem := init }).mem }) ∧
  (∀ (init : Memory) (ims : List Image), (∃ im ∈ ims, 65536 < im.origin.toNat + im.words.length) →
    boot init ims = .refused .imageOutOfRange)

/-- R224, R226: a file is its origin and its words, each the high byte first; an empty file or an odd number of bytes is
truncated (the spec's decision D24, assumption 23). -/
def Obligations.ImageFileFormat : Prop :=
  (∀ (o : Word) (ws : List Word),
    imageOfFile ((o :: ws).flatMap (fun w => [w.extractLsb' 8 8, w.extractLsb' 0 8])) = some ⟨o, ws⟩) ∧
  (∀ (init : Memory) (bytes : List Byte), bytes = [] ∨ bytes.length % 2 = 1 → imageOfFile bytes = none ∧
    bootFiles init [bytes] = .refused .imageTruncated)
end

