-- ==== Sys2Proof/Laws/Encoding.lean ====
section
/-! SUPPORT. Which bit of a format is which bit of which field (rule R81). Each lemma lists the fields from bit 0 upwards;
at a numeral the conditions compute. -/

namespace Sys2Proof

/-- A bit of two fields put side by side, the bits of the upper one being known. -/
theorem bit_append {n m : Nat} (x : BitVec n) (y : BitVec m) (i : Nat) {b : Bool} (h : x.getLsbD (i - m) = b) :
    (x ++ y).getLsbD i = if i < m then y.getLsbD i else b := by
  rw [BitVec.getLsbD_append, h]

theorem formatRRR_bit (op : Opcode) (dr sr1 sr2 : Reg) (i : Nat) :
    (formatRRR op dr sr1 sr2).getLsbD i =
      if i < 3 then sr2.bits.getLsbD i else if i - 3 < 3 then (0b000#3).getLsbD (i - 3)
      else if i - 3 - 3 < 3 then sr1.bits.getLsbD (i - 3 - 3)
      else if i - 3 - 3 - 3 < 3 then dr.bits.getLsbD (i - 3 - 3 - 3) else op.bits.getLsbD (i - 3 - 3 - 3 - 3) :=
  bit_append _ _ _ (bit_append _ _ _ (bit_append _ _ _ (bit_append _ _ _ rfl)))

theorem formatRRI_bit (op : Opcode) (dr sr1 : Reg) (imm : BitVec 5) (i : Nat) :
    (formatRRI op dr sr1 imm).getLsbD i =
      if i < 5 then imm.getLsbD i else if i - 5 < 1 then (0b1#1).getLsbD (i - 5)
      else if i - 5 - 1 < 3 then sr1.bits.getLsbD (i - 5 - 1)
      else if i - 5 - 1 - 3 < 3 then dr.bits.getLsbD (i - 5 - 1 - 3) else op.bits.getLsbD (i - 5 - 1 - 3 - 3) :=
  bit_append _ _ _ (bit_append _ _ _ (bit_append _ _ _ (bit_append _ _ _ rfl)))

theorem formatBO6_bit (op : Opcode) (r base : Reg) (off : BitVec 6) (i : Nat) :
    (formatBO6 op r base off).getLsbD i =
      if i < 6 then off.getLsbD i else if i - 6 < 3 then base.bits.getLsbD (i - 6)
      else if i - 6 - 3 < 3 then r.bits.getLsbD (i - 6 - 3) else op.bits.getLsbD (i - 6 - 3 - 3) :=
  bit_append _ _ _ (bit_append _ _ _ (bit_append _ _ _ rfl))

theorem formatBase_bit (op : Opcode) (base : Reg) (i : Nat) :
    (formatBase op base).getLsbD i =
      if i < 6 then (0b000000#6).getLsbD i else if i - 6 < 3 then base.bits.getLsbD (i - 6)
      else if i - 6 - 3 < 3 then (0b000#3).getLsbD (i - 6 - 3) else op.bits.getLsbD (i - 6 - 3 - 3) :=
  bit_append _ _ _ (bit_append _ _ _ (bit_append _ _ _ rfl))

theorem formatPC9_bit (op : Opcode) (r : Reg) (off : BitVec 9) (i : Nat) :
    (formatPC9 op r off).getLsbD i =
      if i < 9 then off.getLsbD i else if i - 9 < 3 then r.bits.getLsbD (i - 9) else op.bits.getLsbD (i - 9 - 3) :=
  bit_append _ _ _ (bit_append _ _ _ rfl)

theorem formatBR_bit (op : Opcode) (n z p : Bool) (off : BitVec 9) (i : Nat) :
    (formatBR op n z p off).getLsbD i =
      if i < 9 then off.getLsbD i else if i - 9 < 1 then (bit p).getLsbD (i - 9)
      else if i - 9 - 1 < 1 then (bit z).getLsbD (i - 9 - 1)
      else if i - 9 - 1 - 1 < 1 then (bit n).getLsbD (i - 9 - 1 - 1) else op.bits.getLsbD (i - 9 - 1 - 1 - 1) :=
  bit_append _ _ _ (bit_append _ _ _ (bit_append _ _ _ (bit_append _ _ _ rfl)))

theorem formatJSR_bit (op : Opcode) (off : BitVec 11) (i : Nat) :
    (formatJSR op off).getLsbD i =
      if i < 11 then off.getLsbD i else if i - 11 < 1 then (0b1#1).getLsbD (i - 11) else op.bits.getLsbD (i - 11 - 1) :=
  bit_append _ _ _ (bit_append _ _ _ rfl)

theorem formatTRAP_bit (op : Opcode) (vec : BitVec 8) (i : Nat) :
    (formatTRAP op vec).getLsbD i =
      if i < 8 then vec.getLsbD i else if i - 8 < 4 then (0b0000#4).getLsbD (i - 8) else op.bits.getLsbD (i - 8 - 4) :=
  bit_append _ _ _ (bit_append _ _ _ rfl)

theorem formatNONE_bit (op : Opcode) (low : BitVec 12) (i : Nat) :
    (formatNONE op low).getLsbD i = if i < 12 then low.getLsbD i else op.bits.getLsbD (i - 12) :=
  bit_append _ _ _ rfl

@[simp] theorem bit_getLsbD_zero (b : Bool) : (bit b).getLsbD 0 = b := by cases b <;> rfl

/-- A register is named by its own index. -/
@[simp] theorem Reg.ofBits_bits (r : Reg) : Reg.ofBits r.bits = r := by cases r <;> rfl

/-- An index names the register whose index it is. -/
@[simp] theorem Reg.bits_ofBits (b : BitVec 3) : (Reg.ofBits b).bits = b := by
  revert b
  decide

/-- A word is built of its opcode's bits: what `Opcode.ofWord` reads of four bits that are an opcode's. -/
theorem Opcode.ofWord_eq {w : Word} {op : Opcode} (h : ∀ i, i < 4 → w.getLsbD (12 + i) = op.bits.getLsbD i) :
    Opcode.ofWord w = op := by
  have h0 := h 0 (by omega)
  have h1 := h 1 (by omega)
  have h2 := h 2 (by omega)
  have h3 := h 3 (by omega)
  simp only [Nat.add_zero, Nat.reduceAdd] at h0 h1 h2 h3
  unfold Opcode.ofWord
  rw [h0, h1, h2, h3]
  cases op <;> rfl

end Sys2Proof
end

