-- ==== Sys2Proof/Laws/State.lean ====
section
/-! SUPPORT. One lemma per field per update, true by unfolding, so that no later proof unfolds a record update; and the
laws of the register file (rule R20: what was last written is read, no other register changes). -/

namespace Sys2Proof.Machine

open Sys2Proof

/-! ## The register file -/

@[simp] theorem RegFile.get_set (f : RegFile) (d r : Reg) (v : Word) :
    (f.set d v).get r = if r = d then v else f.get r := by
  cases d <;> cases r <;> rfl

theorem RegFile.set_comm (f : RegFile) (d r : Reg) (v w : Word) (h : d ≠ r) :
    (f.set d v).set r w = (f.set r w).set d v := by
  cases d <;> cases r <;> first | rfl | exact absurd rfl h

theorem RegFile.set_set (f : RegFile) (d : Reg) (v w : Word) : (f.set d v).set d w = f.set d w := by
  cases d <;> rfl

/-- Two register files that read alike are equal. -/
theorem RegFile.ext_get {f g : RegFile} (h : ∀ r, f.get r = g.get r) : f = g := by
  have h0 := h .r0
  have h1 := h .r1
  have h2 := h .r2
  have h3 := h .r3
  have h4 := h .r4
  have h5 := h .r5
  have h6 := h .r6
  have h7 := h .r7
  cases f
  cases g
  simp only [RegFile.get] at h0 h1 h2 h3 h4 h5 h6 h7
  subst_vars
  rfl

theorem State.getReg_eq (s : State) (r : Reg) : s.getReg r = s.regs.get r := rfl

theorem State.cell_eq (s : State) (a : Word) : s.cell a = s.mem.read a := rfl

/-! ## State.setReg -/

@[simp] theorem State.setReg_regs (s : State) (r : Reg) (v : Word) :
    (s.setReg r v).regs = s.regs.set r v := rfl
@[simp] theorem State.setReg_pc (s : State) (r : Reg) (v : Word) :
    (s.setReg r v).pc = s.pc := rfl
@[simp] theorem State.setReg_cond (s : State) (r : Reg) (v : Word) :
    (s.setReg r v).cond = s.cond := rfl
@[simp] theorem State.setReg_run (s : State) (r : Reg) (v : Word) :
    (s.setReg r v).run = s.run := rfl
@[simp] theorem State.setReg_fault (s : State) (r : Reg) (v : Word) :
    (s.setReg r v).fault = s.fault := rfl
@[simp] theorem State.setReg_mem (s : State) (r : Reg) (v : Word) :
    (s.setReg r v).mem = s.mem := rfl
@[simp] theorem State.setReg_wait (s : State) (r : Reg) (v : Word) :
    (s.setReg r v).wait = s.wait := rfl
@[simp] theorem State.setReg_keys (s : State) (r : Reg) (v : Word) :
    (s.setReg r v).keys = s.keys := rfl
@[simp] theorem State.setReg_arrivals (s : State) (r : Reg) (v : Word) :
    (s.setReg r v).arrivals = s.arrivals := rfl
@[simp] theorem State.setReg_outStream (s : State) (r : Reg) (v : Word) :
    (s.setReg r v).outStream = s.outStream := rfl
@[simp] theorem State.setReg_flushed (s : State) (r : Reg) (v : Word) :
    (s.setReg r v).flushed = s.flushed := rfl
@[simp] theorem State.setReg_terminalRestores (s : State) (r : Reg) (v : Word) :
    (s.setReg r v).terminalRestores = s.terminalRestores := rfl
@[simp] theorem State.setReg_params (s : State) (r : Reg) (v : Word) :
    (s.setReg r v).params = s.params := rfl
@[simp] theorem State.setReg_getReg (s : State) (r : Reg) (v : Word) (q : Reg) :
    (s.setReg r v).getReg q = if q = r then v else s.getReg q := RegFile.get_set _ _ _ _
@[simp] theorem State.setReg_cell (s : State) (r : Reg) (v : Word) (a : Word) :
    (s.setReg r v).cell a = s.cell a := rfl

/-! ## State.setPc -/

@[simp] theorem State.setPc_regs (s : State) (v : Word) :
    (s.setPc v).regs = s.regs := rfl
@[simp] theorem State.setPc_pc (s : State) (v : Word) :
    (s.setPc v).pc = v := rfl
@[simp] theorem State.setPc_cond (s : State) (v : Word) :
    (s.setPc v).cond = s.cond := rfl
@[simp] theorem State.setPc_run (s : State) (v : Word) :
    (s.setPc v).run = s.run := rfl
@[simp] theorem State.setPc_fault (s : State) (v : Word) :
    (s.setPc v).fault = s.fault := rfl
@[simp] theorem State.setPc_mem (s : State) (v : Word) :
    (s.setPc v).mem = s.mem := rfl
@[simp] theorem State.setPc_wait (s : State) (v : Word) :
    (s.setPc v).wait = s.wait := rfl
@[simp] theorem State.setPc_keys (s : State) (v : Word) :
    (s.setPc v).keys = s.keys := rfl
@[simp] theorem State.setPc_arrivals (s : State) (v : Word) :
    (s.setPc v).arrivals = s.arrivals := rfl
@[simp] theorem State.setPc_outStream (s : State) (v : Word) :
    (s.setPc v).outStream = s.outStream := rfl
@[simp] theorem State.setPc_flushed (s : State) (v : Word) :
    (s.setPc v).flushed = s.flushed := rfl
@[simp] theorem State.setPc_terminalRestores (s : State) (v : Word) :
    (s.setPc v).terminalRestores = s.terminalRestores := rfl
@[simp] theorem State.setPc_params (s : State) (v : Word) :
    (s.setPc v).params = s.params := rfl
@[simp] theorem State.setPc_getReg (s : State) (v : Word) (q : Reg) :
    (s.setPc v).getReg q = s.getReg q := rfl
@[simp] theorem State.setPc_cell (s : State) (v : Word) (a : Word) :
    (s.setPc v).cell a = s.cell a := rfl

/-! ## State.setCell -/

@[simp] theorem State.setCell_regs (s : State) (a v : Word) :
    (s.setCell a v).regs = s.regs := rfl
@[simp] theorem State.setCell_pc (s : State) (a v : Word) :
    (s.setCell a v).pc = s.pc := rfl
@[simp] theorem State.setCell_cond (s : State) (a v : Word) :
    (s.setCell a v).cond = s.cond := rfl
@[simp] theorem State.setCell_run (s : State) (a v : Word) :
    (s.setCell a v).run = s.run := rfl
@[simp] theorem State.setCell_fault (s : State) (a v : Word) :
    (s.setCell a v).fault = s.fault := rfl
@[simp] theorem State.setCell_mem (s : State) (a v : Word) :
    (s.setCell a v).mem = s.mem.write a v := rfl
@[simp] theorem State.setCell_wait (s : State) (a v : Word) :
    (s.setCell a v).wait = s.wait := rfl
@[simp] theorem State.setCell_keys (s : State) (a v : Word) :
    (s.setCell a v).keys = s.keys := rfl
@[simp] theorem State.setCell_arrivals (s : State) (a v : Word) :
    (s.setCell a v).arrivals = s.arrivals := rfl
@[simp] theorem State.setCell_outStream (s : State) (a v : Word) :
    (s.setCell a v).outStream = s.outStream := rfl
@[simp] theorem State.setCell_flushed (s : State) (a v : Word) :
    (s.setCell a v).flushed = s.flushed := rfl
@[simp] theorem State.setCell_terminalRestores (s : State) (a v : Word) :
    (s.setCell a v).terminalRestores = s.terminalRestores := rfl
@[simp] theorem State.setCell_params (s : State) (a v : Word) :
    (s.setCell a v).params = s.params := rfl
@[simp] theorem State.setCell_getReg (s : State) (a v : Word) (q : Reg) :
    (s.setCell a v).getReg q = s.getReg q := rfl

/-! ## State.consoleWrite -/

@[simp] theorem State.consoleWrite_regs (s : State) (b : Byte) :
    (s.consoleWrite b).regs = s.regs := rfl
@[simp] theorem State.consoleWrite_pc (s : State) (b : Byte) :
    (s.consoleWrite b).pc = s.pc := rfl
@[simp] theorem State.consoleWrite_cond (s : State) (b : Byte) :
    (s.consoleWrite b).cond = s.cond := rfl
@[simp] theorem State.consoleWrite_run (s : State) (b : Byte) :
    (s.consoleWrite b).run = s.run := rfl
@[simp] theorem State.consoleWrite_fault (s : State) (b : Byte) :
    (s.consoleWrite b).fault = s.fault := rfl
@[simp] theorem State.consoleWrite_mem (s : State) (b : Byte) :
    (s.consoleWrite b).mem = s.mem := rfl
@[simp] theorem State.consoleWrite_wait (s : State) (b : Byte) :
    (s.consoleWrite b).wait = s.wait := rfl
@[simp] theorem State.consoleWrite_keys (s : State) (b : Byte) :
    (s.consoleWrite b).keys = s.keys := rfl
@[simp] theorem State.consoleWrite_arrivals (s : State) (b : Byte) :
    (s.consoleWrite b).arrivals = s.arrivals := rfl
@[simp] theorem State.consoleWrite_outStream (s : State) (b : Byte) :
    (s.consoleWrite b).outStream = s.outStream ++ [b] := rfl
@[simp] theorem State.consoleWrite_flushed (s : State) (b : Byte) :
    (s.consoleWrite b).flushed = s.flushed := rfl
@[simp] theorem State.consoleWrite_terminalRestores (s : State) (b : Byte) :
    (s.consoleWrite b).terminalRestores = s.terminalRestores := rfl
@[simp] theorem State.consoleWrite_params (s : State) (b : Byte) :
    (s.consoleWrite b).params = s.params := rfl
@[simp] theorem State.consoleWrite_getReg (s : State) (b : Byte) (q : Reg) :
    (s.consoleWrite b).getReg q = s.getReg q := rfl
@[simp] theorem State.consoleWrite_cell (s : State) (b : Byte) (a : Word) :
    (s.consoleWrite b).cell a = s.cell a := rfl

/-! ## State.consoleWriteAll -/

@[simp] theorem State.consoleWriteAll_regs (s : State) (bs : List Byte) :
    (s.consoleWriteAll bs).regs = s.regs := rfl
@[simp] theorem State.consoleWriteAll_pc (s : State) (bs : List Byte) :
    (s.consoleWriteAll bs).pc = s.pc := rfl
@[simp] theorem State.consoleWriteAll_cond (s : State) (bs : List Byte) :
    (s.consoleWriteAll bs).cond = s.cond := rfl
@[simp] theorem State.consoleWriteAll_run (s : State) (bs : List Byte) :
    (s.consoleWriteAll bs).run = s.run := rfl
@[simp] theorem State.consoleWriteAll_fault (s : State) (bs : List Byte) :
    (s.consoleWriteAll bs).fault = s.fault := rfl
@[simp] theorem State.consoleWriteAll_mem (s : State) (bs : List Byte) :
    (s.consoleWriteAll bs).mem = s.mem := rfl
@[simp] theorem State.consoleWriteAll_wait (s : State) (bs : List Byte) :
    (s.consoleWriteAll bs).wait = s.wait := rfl
@[simp] theorem State.consoleWriteAll_keys (s : State) (bs : List Byte) :
    (s.consoleWriteAll bs).keys = s.keys := rfl
@[simp] theorem State.consoleWriteAll_arrivals (s : State) (bs : List Byte) :
    (s.consoleWriteAll bs).arrivals = s.arrivals := rfl
@[simp] theorem State.consoleWriteAll_outStream (s : State) (bs : List Byte) :
    (s.consoleWriteAll bs).outStream = s.outStream ++ bs := rfl
@[simp] theorem State.consoleWriteAll_flushed (s : State) (bs : List Byte) :
    (s.consoleWriteAll bs).flushed = s.flushed := rfl
@[simp] theorem State.consoleWriteAll_terminalRestores (s : State) (bs : List Byte) :
    (s.consoleWriteAll bs).terminalRestores = s.terminalRestores := rfl
@[simp] theorem State.consoleWriteAll_params (s : State) (bs : List Byte) :
    (s.consoleWriteAll bs).params = s.params := rfl
@[simp] theorem State.consoleWriteAll_getReg (s : State) (bs : List Byte) (q : Reg) :
    (s.consoleWriteAll bs).getReg q = s.getReg q := rfl
@[simp] theorem State.consoleWriteAll_cell (s : State) (bs : List Byte) (a : Word) :
    (s.consoleWriteAll bs).cell a = s.cell a := rfl

/-! ## State.consoleFlush -/

@[simp] theorem State.consoleFlush_regs (s : State) :
    s.consoleFlush.regs = s.regs := rfl
@[simp] theorem State.consoleFlush_pc (s : State) :
    s.consoleFlush.pc = s.pc := rfl
@[simp] theorem State.consoleFlush_cond (s : State) :
    s.consoleFlush.cond = s.cond := rfl
@[simp] theorem State.consoleFlush_run (s : State) :
    s.consoleFlush.run = s.run := rfl
@[simp] theorem State.consoleFlush_fault (s : State) :
    s.consoleFlush.fault = s.fault := rfl
@[simp] theorem State.consoleFlush_mem (s : State) :
    s.consoleFlush.mem = s.mem := rfl
@[simp] theorem State.consoleFlush_wait (s : State) :
    s.consoleFlush.wait = s.wait := rfl
@[simp] theorem State.consoleFlush_keys (s : State) :
    s.consoleFlush.keys = s.keys := rfl
@[simp] theorem State.consoleFlush_arrivals (s : State) :
    s.consoleFlush.arrivals = s.arrivals := rfl
@[simp] theorem State.consoleFlush_outStream (s : State) :
    s.consoleFlush.outStream = s.outStream := rfl
@[simp] theorem State.consoleFlush_flushed (s : State) :
    s.consoleFlush.flushed = s.outStream.length := rfl
@[simp] theorem State.consoleFlush_terminalRestores (s : State) :
    s.consoleFlush.terminalRestores = s.terminalRestores := rfl
@[simp] theorem State.consoleFlush_params (s : State) :
    s.consoleFlush.params = s.params := rfl
@[simp] theorem State.consoleFlush_getReg (s : State) (q : Reg) :
    s.consoleFlush.getReg q = s.getReg q := rfl
@[simp] theorem State.consoleFlush_cell (s : State) (a : Word) :
    s.consoleFlush.cell a = s.cell a := rfl

/-! ## State.restoreTerminal -/

@[simp] theorem State.restoreTerminal_regs (s : State) :
    s.restoreTerminal.regs = s.regs := rfl
@[simp] theorem State.restoreTerminal_pc (s : State) :
    s.restoreTerminal.pc = s.pc := rfl
@[simp] theorem State.restoreTerminal_cond (s : State) :
    s.restoreTerminal.cond = s.cond := rfl
@[simp] theorem State.restoreTerminal_run (s : State) :
    s.restoreTerminal.run = s.run := rfl
@[simp] theorem State.restoreTerminal_fault (s : State) :
    s.restoreTerminal.fault = s.fault := rfl
@[simp] theorem State.restoreTerminal_mem (s : State) :
    s.restoreTerminal.mem = s.mem := rfl
@[simp] theorem State.restoreTerminal_wait (s : State) :
    s.restoreTerminal.wait = s.wait := rfl
@[simp] theorem State.restoreTerminal_keys (s : State) :
    s.restoreTerminal.keys = s.keys := rfl
@[simp] theorem State.restoreTerminal_arrivals (s : State) :
    s.restoreTerminal.arrivals = s.arrivals := rfl
@[simp] theorem State.restoreTerminal_outStream (s : State) :
    s.restoreTerminal.outStream = s.outStream := rfl
@[simp] theorem State.restoreTerminal_flushed (s : State) :
    s.restoreTerminal.flushed = s.flushed := rfl
@[simp] theorem State.restoreTerminal_terminalRestores (s : State) :
    s.restoreTerminal.terminalRestores = s.terminalRestores + 1 := rfl
@[simp] theorem State.restoreTerminal_params (s : State) :
    s.restoreTerminal.params = s.params := rfl
@[simp] theorem State.restoreTerminal_getReg (s : State) (q : Reg) :
    s.restoreTerminal.getReg q = s.getReg q := rfl
@[simp] theorem State.restoreTerminal_cell (s : State) (a : Word) :
    s.restoreTerminal.cell a = s.cell a := rfl

/-! ## State.stop -/

@[simp] theorem State.stop_regs (s : State) :
    s.stop.regs = s.regs := rfl
@[simp] theorem State.stop_pc (s : State) :
    s.stop.pc = s.pc := rfl
@[simp] theorem State.stop_cond (s : State) :
    s.stop.cond = s.cond := rfl
@[simp] theorem State.stop_run (s : State) :
    s.stop.run = false := rfl
@[simp] theorem State.stop_fault (s : State) :
    s.stop.fault = s.fault := rfl
@[simp] theorem State.stop_mem (s : State) :
    s.stop.mem = s.mem := rfl
@[simp] theorem State.stop_wait (s : State) :
    s.stop.wait = s.wait := rfl
@[simp] theorem State.stop_keys (s : State) :
    s.stop.keys = s.keys := rfl
@[simp] theorem State.stop_arrivals (s : State) :
    s.stop.arrivals = s.arrivals := rfl
@[simp] theorem State.stop_outStream (s : State) :
    s.stop.outStream = s.outStream := rfl
@[simp] theorem State.stop_flushed (s : State) :
    s.stop.flushed = s.flushed := rfl
@[simp] theorem State.stop_terminalRestores (s : State) :
    s.stop.terminalRestores = s.terminalRestores := rfl
@[simp] theorem State.stop_params (s : State) :
    s.stop.params = s.params := rfl
@[simp] theorem State.stop_getReg (s : State) (q : Reg) :
    s.stop.getReg q = s.getReg q := rfl
@[simp] theorem State.stop_cell (s : State) (a : Word) :
    s.stop.cell a = s.cell a := rfl

/-! ## State.setFault -/

@[simp] theorem State.setFault_regs (s : State) (c : FaultCause) (i : Word) :
    (s.setFault c i).regs = s.regs := rfl
@[simp] theorem State.setFault_pc (s : State) (c : FaultCause) (i : Word) :
    (s.setFault c i).pc = s.pc := rfl
@[simp] theorem State.setFault_cond (s : State) (c : FaultCause) (i : Word) :
    (s.setFault c i).cond = s.cond := rfl
@[simp] theorem State.setFault_run (s : State) (c : FaultCause) (i : Word) :
    (s.setFault c i).run = s.run := rfl
@[simp] theorem State.setFault_fault (s : State) (c : FaultCause) (i : Word) :
    (s.setFault c i).fault = ⟨c, i⟩ := rfl
@[simp] theorem State.setFault_mem (s : State) (c : FaultCause) (i : Word) :
    (s.setFault c i).mem = s.mem := rfl
@[simp] theorem State.setFault_wait (s : State) (c : FaultCause) (i : Word) :
    (s.setFault c i).wait = s.wait := rfl
@[simp] theorem State.setFault_keys (s : State) (c : FaultCause) (i : Word) :
    (s.setFault c i).keys = s.keys := rfl
@[simp] theorem State.setFault_arrivals (s : State) (c : FaultCause) (i : Word) :
    (s.setFault c i).arrivals = s.arrivals := rfl
@[simp] theorem State.setFault_outStream (s : State) (c : FaultCause) (i : Word) :
    (s.setFault c i).outStream = s.outStream := rfl
@[simp] theorem State.setFault_flushed (s : State) (c : FaultCause) (i : Word) :
    (s.setFault c i).flushed = s.flushed := rfl
@[simp] theorem State.setFault_terminalRestores (s : State) (c : FaultCause) (i : Word) :
    (s.setFault c i).terminalRestores = s.terminalRestores := rfl
@[simp] theorem State.setFault_params (s : State) (c : FaultCause) (i : Word) :
    (s.setFault c i).params = s.params := rfl
@[simp] theorem State.setFault_getReg (s : State) (c : FaultCause) (i : Word) (q : Reg) :
    (s.setFault c i).getReg q = s.getReg q := rfl
@[simp] theorem State.setFault_cell (s : State) (c : FaultCause) (i : Word) (a : Word) :
    (s.setFault c i).cell a = s.cell a := rfl

/-! ## raiseFatal -/

@[simp] theorem raiseFatal_regs (c : FaultCause) (i : Word) (s : State) :
    (raiseFatal c i s).regs = s.regs := rfl
@[simp] theorem raiseFatal_pc (c : FaultCause) (i : Word) (s : State) :
    (raiseFatal c i s).pc = s.pc := rfl
@[simp] theorem raiseFatal_cond (c : FaultCause) (i : Word) (s : State) :
    (raiseFatal c i s).cond = s.cond := rfl
@[simp] theorem raiseFatal_run (c : FaultCause) (i : Word) (s : State) :
    (raiseFatal c i s).run = false := rfl
@[simp] theorem raiseFatal_fault (c : FaultCause) (i : Word) (s : State) :
    (raiseFatal c i s).fault = ⟨c, i⟩ := rfl
@[simp] theorem raiseFatal_mem (c : FaultCause) (i : Word) (s : State) :
    (raiseFatal c i s).mem = s.mem := rfl
@[simp] theorem raiseFatal_wait (c : FaultCause) (i : Word) (s : State) :
    (raiseFatal c i s).wait = s.wait := rfl
@[simp] theorem raiseFatal_keys (c : FaultCause) (i : Word) (s : State) :
    (raiseFatal c i s).keys = s.keys := rfl
@[simp] theorem raiseFatal_arrivals (c : FaultCause) (i : Word) (s : State) :
    (raiseFatal c i s).arrivals = s.arrivals := rfl
@[simp] theorem raiseFatal_outStream (c : FaultCause) (i : Word) (s : State) :
    (raiseFatal c i s).outStream = s.outStream := rfl
@[simp] theorem raiseFatal_flushed (c : FaultCause) (i : Word) (s : State) :
    (raiseFatal c i s).flushed = s.flushed := rfl
@[simp] theorem raiseFatal_terminalRestores (c : FaultCause) (i : Word) (s : State) :
    (raiseFatal c i s).terminalRestores = s.terminalRestores + 1 := rfl
@[simp] theorem raiseFatal_params (c : FaultCause) (i : Word) (s : State) :
    (raiseFatal c i s).params = s.params := rfl
@[simp] theorem raiseFatal_getReg (c : FaultCause) (i : Word) (s : State) (q : Reg) :
    (raiseFatal c i s).getReg q = s.getReg q := rfl
@[simp] theorem raiseFatal_cell (c : FaultCause) (i : Word) (s : State) (a : Word) :
    (raiseFatal c i s).cell a = s.cell a := rfl

/-! ## setcc -/

@[simp] theorem setcc_regs (v : Word) (s : State) :
    (setcc v s).regs = s.regs := rfl
@[simp] theorem setcc_pc (v : Word) (s : State) :
    (setcc v s).pc = s.pc := rfl
@[simp] theorem setcc_cond (v : Word) (s : State) :
    (setcc v s).cond = condOf v := rfl
@[simp] theorem setcc_run (v : Word) (s : State) :
    (setcc v s).run = s.run := rfl
@[simp] theorem setcc_fault (v : Word) (s : State) :
    (setcc v s).fault = s.fault := rfl
@[simp] theorem setcc_mem (v : Word) (s : State) :
    (setcc v s).mem = s.mem := rfl
@[simp] theorem setcc_wait (v : Word) (s : State) :
    (setcc v s).wait = s.wait := rfl
@[simp] theorem setcc_keys (v : Word) (s : State) :
    (setcc v s).keys = s.keys := rfl
@[simp] theorem setcc_arrivals (v : Word) (s : State) :
    (setcc v s).arrivals = s.arrivals := rfl
@[simp] theorem setcc_outStream (v : Word) (s : State) :
    (setcc v s).outStream = s.outStream := rfl
@[simp] theorem setcc_flushed (v : Word) (s : State) :
    (setcc v s).flushed = s.flushed := rfl
@[simp] theorem setcc_terminalRestores (v : Word) (s : State) :
    (setcc v s).terminalRestores = s.terminalRestores := rfl
@[simp] theorem setcc_params (v : Word) (s : State) :
    (setcc v s).params = s.params := rfl
@[simp] theorem setcc_getReg (v : Word) (s : State) (q : Reg) :
    (setcc v s).getReg q = s.getReg q := rfl
@[simp] theorem setcc_cell (v : Word) (s : State) (a : Word) :
    (setcc v s).cell a = s.cell a := rfl

/-! ## saveReturn -/

@[simp] theorem saveReturn_regs (s : State) :
    (saveReturn s).regs = s.regs.set .r7 s.pc := rfl
@[simp] theorem saveReturn_pc (s : State) :
    (saveReturn s).pc = s.pc := rfl
@[simp] theorem saveReturn_cond (s : State) :
    (saveReturn s).cond = s.cond := rfl
@[simp] theorem saveReturn_run (s : State) :
    (saveReturn s).run = s.run := rfl
@[simp] theorem saveReturn_fault (s : State) :
    (saveReturn s).fault = s.fault := rfl
@[simp] theorem saveReturn_mem (s : State) :
    (saveReturn s).mem = s.mem := rfl
@[simp] theorem saveReturn_wait (s : State) :
    (saveReturn s).wait = s.wait := rfl
@[simp] theorem saveReturn_keys (s : State) :
    (saveReturn s).keys = s.keys := rfl
@[simp] theorem saveReturn_arrivals (s : State) :
    (saveReturn s).arrivals = s.arrivals := rfl
@[simp] theorem saveReturn_outStream (s : State) :
    (saveReturn s).outStream = s.outStream := rfl
@[simp] theorem saveReturn_flushed (s : State) :
    (saveReturn s).flushed = s.flushed := rfl
@[simp] theorem saveReturn_terminalRestores (s : State) :
    (saveReturn s).terminalRestores = s.terminalRestores := rfl
@[simp] theorem saveReturn_params (s : State) :
    (saveReturn s).params = s.params := rfl
@[simp] theorem saveReturn_getReg (s : State) (q : Reg) :
    (saveReturn s).getReg q = if q = .r7 then s.pc else s.getReg q := RegFile.get_set _ _ _ _
@[simp] theorem saveReturn_cell (s : State) (a : Word) :
    (saveReturn s).cell a = s.cell a := rfl

/-! ## memWrite -/

@[simp] theorem memWrite_regs (a v : Word) (s : State) :
    (memWrite a v s).regs = s.regs := rfl
@[simp] theorem memWrite_pc (a v : Word) (s : State) :
    (memWrite a v s).pc = s.pc := rfl
@[simp] theorem memWrite_cond (a v : Word) (s : State) :
    (memWrite a v s).cond = s.cond := rfl
@[simp] theorem memWrite_run (a v : Word) (s : State) :
    (memWrite a v s).run = s.run := rfl
@[simp] theorem memWrite_fault (a v : Word) (s : State) :
    (memWrite a v s).fault = s.fault := rfl
@[simp] theorem memWrite_mem (a v : Word) (s : State) :
    (memWrite a v s).mem = s.mem.write a v := rfl
@[simp] theorem memWrite_wait (a v : Word) (s : State) :
    (memWrite a v s).wait = s.wait := rfl
@[simp] theorem memWrite_keys (a v : Word) (s : State) :
    (memWrite a v s).keys = s.keys := rfl
@[simp] theorem memWrite_arrivals (a v : Word) (s : State) :
    (memWrite a v s).arrivals = s.arrivals := rfl
@[simp] theorem memWrite_outStream (a v : Word) (s : State) :
    (memWrite a v s).outStream = s.outStream := rfl
@[simp] theorem memWrite_flushed (a v : Word) (s : State) :
    (memWrite a v s).flushed = s.flushed := rfl
@[simp] theorem memWrite_terminalRestores (a v : Word) (s : State) :
    (memWrite a v s).terminalRestores = s.terminalRestores := rfl
@[simp] theorem memWrite_params (a v : Word) (s : State) :
    (memWrite a v s).params = s.params := rfl
@[simp] theorem memWrite_getReg (a v : Word) (s : State) (q : Reg) :
    (memWrite a v s).getReg q = s.getReg q := rfl

/-! ## writeFlagged, the end of the flag-defining instructions (R27) -/

/-- What `writeFlagged` does, as one record: the register and the class of what it now holds. -/
theorem writeFlagged_eq (dr : Reg) (v : Word) (s : State) :
    writeFlagged dr v s = setcc v (s.setReg dr v) := by
  simp [writeFlagged]

@[simp] theorem writeFlagged_regs (dr : Reg) (v : Word) (s : State) :
    (writeFlagged dr v s).regs = s.regs.set dr v := rfl
@[simp] theorem writeFlagged_pc (dr : Reg) (v : Word) (s : State) :
    (writeFlagged dr v s).pc = s.pc := rfl
@[simp] theorem writeFlagged_cond (dr : Reg) (v : Word) (s : State) :
    (writeFlagged dr v s).cond = condOf v := by simp [writeFlagged_eq]
@[simp] theorem writeFlagged_run (dr : Reg) (v : Word) (s : State) :
    (writeFlagged dr v s).run = s.run := rfl
@[simp] theorem writeFlagged_fault (dr : Reg) (v : Word) (s : State) :
    (writeFlagged dr v s).fault = s.fault := rfl
@[simp] theorem writeFlagged_mem (dr : Reg) (v : Word) (s : State) :
    (writeFlagged dr v s).mem = s.mem := rfl
@[simp] theorem writeFlagged_wait (dr : Reg) (v : Word) (s : State) :
    (writeFlagged dr v s).wait = s.wait := rfl
@[simp] theorem writeFlagged_keys (dr : Reg) (v : Word) (s : State) :
    (writeFlagged dr v s).keys = s.keys := rfl
@[simp] theorem writeFlagged_arrivals (dr : Reg) (v : Word) (s : State) :
    (writeFlagged dr v s).arrivals = s.arrivals := rfl
@[simp] theorem writeFlagged_outStream (dr : Reg) (v : Word) (s : State) :
    (writeFlagged dr v s).outStream = s.outStream := rfl
@[simp] theorem writeFlagged_flushed (dr : Reg) (v : Word) (s : State) :
    (writeFlagged dr v s).flushed = s.flushed := rfl
@[simp] theorem writeFlagged_terminalRestores (dr : Reg) (v : Word) (s : State) :
    (writeFlagged dr v s).terminalRestores = s.terminalRestores := rfl
@[simp] theorem writeFlagged_params (dr : Reg) (v : Word) (s : State) :
    (writeFlagged dr v s).params = s.params := rfl
@[simp] theorem writeFlagged_getReg (dr : Reg) (v : Word) (s : State) (q : Reg) :
    (writeFlagged dr v s).getReg q = if q = dr then v else s.getReg q := RegFile.get_set _ _ _ _
@[simp] theorem writeFlagged_cell (dr : Reg) (v : Word) (s : State) (a : Word) :
    (writeFlagged dr v s).cell a = s.cell a := rfl

end Sys2Proof.Machine
end

