-- ==== Sys2Proof/Laws/Memory.lean ====
section
/-! SUPPORT. The laws of the memory array: a read after a write (rules R50, R58, R65), and that every memory operation
keeps the canonical form. -/

namespace Sys2Proof.Machine

open Sys2Proof

theorem Memory.read_erase (m : Memory) (k : Nat) (a : Word) :
    Memory.read (Memory.erase m k) a = if a.toNat = k then Memory.unlisted else Memory.read m a := by
  induction m with
  | nil => simp [Memory.erase, Memory.read]
  | cons c m ih =>
    by_cases hk : c.1 = k
    · by_cases ha : a.toNat = k
      · simp [Memory.erase, hk, ih, ha]
      · simp [Memory.erase, Memory.read, hk, ih, ha, Ne.symm ha]
    · by_cases ha : a.toNat = k
      · simp [Memory.erase, Memory.read, hk, ih, ha]
      · simp [Memory.erase, Memory.read, hk, ih, ha]

/-- An inserted cell is read at its address, whatever the list, when no other cell of the list has that address. -/
theorem Memory.read_insert (m : Memory) (b : Word) (v : Word) (a : Word)
    (h : ∀ c ∈ m, c.1 ≠ b.toNat) :
    Memory.read (Memory.insert m b.toNat v) a = if a = b then v else Memory.read m a := by
  induction m with
  | nil =>
    by_cases hab : a = b
    · simp [Memory.insert, Memory.read, hab]
    · have : b.toNat ≠ a.toNat := fun e => hab (BitVec.eq_of_toNat_eq e.symm)
      simp [Memory.insert, Memory.read, hab, this]
  | cons c m ih =>
    have hc : c.1 ≠ b.toNat := h c (by simp)
    have ih := ih (fun d hd => h d (by simp [hd]))
    by_cases hab : a = b
    · subst hab
      by_cases hlt : a.toNat < c.1 <;> simp [Memory.insert, Memory.read, hlt, hc, ih]
    · have : b.toNat ≠ a.toNat := fun e => hab (BitVec.eq_of_toNat_eq e.symm)
      by_cases hlt : b.toNat < c.1 <;> simp [Memory.insert, Memory.read, hlt, this, ih, hab]

theorem Memory.mem_erase {m : Memory} {k : Nat} {c : MemCell} : c ∈ Memory.erase m k ↔ c ∈ m ∧ c.1 ≠ k := by
  induction m with
  | nil => simp [Memory.erase]
  | cons d m ih =>
    by_cases hd : d.1 = k
    · simp only [Memory.erase, hd, if_true, ih, List.mem_cons]
      constructor
      · exact fun h => ⟨Or.inr h.1, h.2⟩
      · rintro ⟨rfl | h, hk⟩
        · exact absurd hd hk
        · exact ⟨h, hk⟩
    · simp only [Memory.erase, hd, if_false, ih, List.mem_cons]
      constructor
      · rintro (rfl | h)
        · exact ⟨Or.inl rfl, hd⟩
        · exact ⟨Or.inr h.1, h.2⟩
      · rintro ⟨rfl | h, hk⟩
        · exact Or.inl rfl
        · exact Or.inr ⟨h, hk⟩

/-- A read after a write, on every list: the value at the address written, what was there elsewhere (R58, R65). -/
@[simp] theorem Memory.read_write (m : Memory) (b v a : Word) :
    (Memory.write m b v).read a = if a = b then v else m.read a := by
  have hne : (a.toNat = b.toNat) = (a = b) := by simp [BitVec.toNat_inj]
  by_cases hv : v = Memory.unlisted
  · simp only [Memory.write, hv, if_true, Memory.read_erase, hne]
  · simp only [Memory.write, hv, if_false]
    rw [Memory.read_insert _ _ _ _ (fun c hc => (Memory.mem_erase.mp hc).2), Memory.read_erase]
    by_cases hab : a = b <;> simp [hab, hne]

@[simp] theorem State.setCell_cell (s : State) (b v a : Word) :
    (s.setCell b v).cell a = if a = b then v else s.cell a := Memory.read_write _ _ _ _

@[simp] theorem memWrite_cell (b v : Word) (s : State) (a : Word) :
    (memWrite b v s).cell a = if a = b then v else s.cell a := Memory.read_write _ _ _ _

/-! ## The canonical form -/

theorem Memory.erase_wf {m : Memory} (h : m.wf) (k : Nat) : Memory.wf (Memory.erase m k) := by
  refine ⟨?_, fun c hc => h.2 c (Memory.mem_erase.mp hc).1⟩
  have hp := h.1
  clear h
  induction m with
  | nil => simp [Memory.erase]
  | cons d m ih =>
    rw [List.pairwise_cons] at hp
    by_cases hd : d.1 = k
    · simpa [Memory.erase, hd] using ih hp.2
    · simp only [Memory.erase, hd, if_false, List.pairwise_cons]
      exact ⟨fun c hc => hp.1 c (Memory.mem_erase.mp hc).1, ih hp.2⟩

theorem Memory.mem_insert {m : Memory} {k : Nat} {v : Word} {c : MemCell} :
    c ∈ Memory.insert m k v ↔ c = (k, v) ∨ c ∈ m := by
  induction m with
  | nil => simp [Memory.insert]
  | cons d m ih =>
    by_cases hlt : k < d.1
    · simp [Memory.insert, hlt]
    · simp only [Memory.insert, hlt, if_false, List.mem_cons, ih]
      tauto

theorem Memory.insert_wf {m : Memory} (h : m.wf) {k : Nat} {v : Word} (hk : k < 65536) (hv : v ≠ Memory.unlisted)
    (hm : ∀ c ∈ m, c.1 ≠ k) : Memory.wf (Memory.insert m k v) := by
  constructor
  · have hp := h.1
    clear h
    induction m with
    | nil => simp [Memory.insert]
    | cons d m ih =>
      rw [List.pairwise_cons] at hp
      have hd : d.1 ≠ k := hm d (by simp)
      by_cases hlt : k < d.1
      · simp only [Memory.insert, hlt, if_true, List.pairwise_cons, List.mem_cons]
        refine ⟨?_, hp⟩
        rintro c (rfl | hc)
        · exact hlt
        · exact lt_trans hlt (hp.1 c hc)
      · simp only [Memory.insert, hlt, if_false, List.pairwise_cons]
        refine ⟨fun c hc => ?_, ih (fun c hc => hm c (by simp [hc])) hp.2⟩
        rcases Memory.mem_insert.mp hc with rfl | hc
        · exact lt_of_le_of_ne (not_lt.mp hlt) hd
        · exact hp.1 c hc
  · intro c hc
    rcases Memory.mem_insert.mp hc with rfl | hc
    · exact ⟨hk, hv⟩
    · exact h.2 c hc

/-- A write keeps the canonical form. -/
theorem Memory.write_wf {m : Memory} (h : m.wf) (a v : Word) : Memory.wf (m.write a v) := by
  by_cases hv : v = Memory.unlisted
  · simpa [Memory.write, hv] using Memory.erase_wf h a.toNat
  · simp only [Memory.write, hv, if_false]
    exact Memory.insert_wf (Memory.erase_wf h _) a.isLt hv (fun c hc => (Memory.mem_erase.mp hc).2)

theorem State.setCell_wf {s : State} (h : s.mem.wf) (a v : Word) : (s.setCell a v).mem.wf := Memory.write_wf h a v

theorem memWrite_wf {s : State} (h : s.mem.wf) (a v : Word) : (memWrite a v s).mem.wf := Memory.write_wf h a v

/-- Memory right after reset has the canonical form. -/
theorem State.reset_mem_wf : State.reset.mem.wf := by simp [State.reset, Memory.wf]

end Sys2Proof.Machine
end

