-- ==== Sys2Proof/Laws/Ops.lean ====
section
/-! SUPPORT. What each shared operation can do, said once: the keyboard, the dispatcher, the fetch, the wait and the string
loop. Later proofs cite these and do not unfold the operations. -/

namespace Sys2Proof.Machine

open Sys2Proof

/-! ## The keyboard (R10, R115) -/

/-- Sampling with nothing to come changes nothing. -/
theorem sampleKeyboard_nil {s : State} (h : s.arrivals = []) : s.sampleKeyboard = s := by
  simp [State.sampleKeyboard, h]

/-- Sampling takes the next batch of arrivals to the end of the queue. -/
theorem sampleKeyboard_cons {s : State} {b : List Byte} {bs : List (List Byte)} (h : s.arrivals = b :: bs) :
    s.sampleKeyboard = { s with keys := s.keys ++ b, arrivals := bs } := by
  simp [State.sampleKeyboard, h]

/-- Sampling touches the queue and the arrivals alone. -/
theorem sampleKeyboard_eq (s : State) :
    s.sampleKeyboard = { s with keys := s.sampleKeyboard.keys, arrivals := s.sampleKeyboard.arrivals } := by
  cases h : s.arrivals with
  | nil => simp [sampleKeyboard_nil h]
  | cons b bs => simp [sampleKeyboard_cons h]

/-- Sampling neither loses, makes nor reorders a key. -/
theorem sampleKeyboard_stream (s : State) :
    s.sampleKeyboard.keys ++ s.sampleKeyboard.arrivals.flatten = s.keys ++ s.arrivals.flatten := by
  cases h : s.arrivals with
  | nil => simp [sampleKeyboard_nil h, h]
  | cons b bs => simp [sampleKeyboard_cons h]

/-- A key read from a queue that is not empty is the oldest (R10). -/
theorem keyRead_cons {s : State} {k : Byte} {ks : List Byte} (h : s.sampleKeyboard.keys = k :: ks) :
    keyRead s = (some k, { s.sampleKeyboard with keys := ks }) := by
  simp [keyRead, h]

/-- A key read from an empty queue yields none and removes none (R118). -/
theorem keyRead_nil {s : State} (h : s.sampleKeyboard.keys = []) : keyRead s = (none, s.sampleKeyboard) := by
  simp [keyRead, h]

/-- Either the queue was empty, or the oldest key was taken: everything a `keyRead` can do. -/
theorem keyRead_cases (s : State) :
    (s.sampleKeyboard.keys = [] ∧ keyRead s = (none, s.sampleKeyboard)) ∨
      ∃ k ks, s.sampleKeyboard.keys = k :: ks ∧ keyRead s = (some k, { s.sampleKeyboard with keys := ks }) := by
  cases h : s.sampleKeyboard.keys with
  | nil => exact .inl ⟨rfl, keyRead_nil h⟩
  | cons k ks => exact .inr ⟨k, ks, rfl, keyRead_cons h⟩

/-! ## The dispatcher (R51 to R56) -/

@[simp] theorem memRead_fst (a : Word) (s : State) : (memRead a s).1 = (readEffect a s).cell a := rfl

@[simp] theorem memRead_snd (a : Word) (s : State) : (memRead a s).2 = readEffect a s := rfl

/-- A read of any address but `KBSR` changes nothing (R55, R56). -/
@[simp] theorem readEffect_ordinary {a : Word} (h : a ≠ Config.kbsrAddr) (s : State) : readEffect a s = s := by
  simp [readEffect, h]

@[simp] theorem readEffect_kbsr (s : State) : readEffect Config.kbsrAddr s = pollKeyboard s := by
  simp [readEffect]

/-- The poll with a key available (R53). -/
theorem pollKeyboard_cons {s : State} {k : Byte} {ks : List Byte} (h : s.sampleKeyboard.keys = k :: ks) :
    pollKeyboard s =
      { s with
        mem := (s.mem.write Config.kbsrAddr (s.cell Config.kbsrAddr ||| 0x8000#16)).write Config.kbdrAddr (k.setWidth 16)
        keys := ks
        arrivals := s.sampleKeyboard.arrivals } := by
  rw [pollKeyboard, keyRead_cons h]
  simp only [State.setCell, State.cell_eq]
  rw [sampleKeyboard_eq s]

/-- The poll with no key available (R54). -/
theorem pollKeyboard_nil {s : State} (h : s.sampleKeyboard.keys = []) :
    pollKeyboard s =
      { s with
        mem := s.mem.write Config.kbsrAddr (s.cell Config.kbsrAddr &&& 0x7FFF#16)
        keys := []
        arrivals := s.sampleKeyboard.arrivals } := by
  rw [pollKeyboard, keyRead_nil h]
  simp only [State.setCell, State.cell_eq]
  rw [sampleKeyboard_eq s, h]

/-- Everything a read can do to the state: it may change memory, the queue and the arrivals, and nothing else. -/
theorem readEffect_eq (a : Word) (s : State) :
    readEffect a s =
      { s with
        mem := (readEffect a s).mem
        keys := (readEffect a s).keys
        arrivals := (readEffect a s).arrivals } := by
  by_cases ha : a = Config.kbsrAddr
  · subst ha
    rw [readEffect_kbsr]
    rcases keyRead_cases s with ⟨h, -⟩ | ⟨k, ks, h, -⟩
    · rw [pollKeyboard_nil h]
    · rw [pollKeyboard_cons h]
  · rw [readEffect_ordinary ha]

@[simp] theorem readEffect_regs (a : Word) (s : State) : (readEffect a s).regs = s.regs := by rw [readEffect_eq]
@[simp] theorem readEffect_pc (a : Word) (s : State) : (readEffect a s).pc = s.pc := by rw [readEffect_eq]
@[simp] theorem readEffect_cond (a : Word) (s : State) : (readEffect a s).cond = s.cond := by rw [readEffect_eq]
@[simp] theorem readEffect_run (a : Word) (s : State) : (readEffect a s).run = s.run := by rw [readEffect_eq]
@[simp] theorem readEffect_fault (a : Word) (s : State) : (readEffect a s).fault = s.fault := by rw [readEffect_eq]
@[simp] theorem readEffect_wait (a : Word) (s : State) : (readEffect a s).wait = s.wait := by rw [readEffect_eq]
@[simp] theorem readEffect_outStream (a : Word) (s : State) : (readEffect a s).outStream = s.outStream := by
  rw [readEffect_eq]
@[simp] theorem readEffect_flushed (a : Word) (s : State) : (readEffect a s).flushed = s.flushed := by
  rw [readEffect_eq]
@[simp] theorem readEffect_terminalRestores (a : Word) (s : State) :
    (readEffect a s).terminalRestores = s.terminalRestores := by rw [readEffect_eq]
@[simp] theorem readEffect_params (a : Word) (s : State) : (readEffect a s).params = s.params := by rw [readEffect_eq]
@[simp] theorem readEffect_getReg (a : Word) (s : State) (r : Reg) : (readEffect a s).getReg r = s.getReg r := by
  rw [State.getReg_eq, State.getReg_eq, readEffect_regs]

/-- A read leaves every cell but the two device cells as it was (R53, R54, R56). -/
theorem readEffect_cell_ordinary (a : Word) (s : State) {b : Word} (h1 : b ≠ Config.kbsrAddr)
    (h2 : b ≠ Config.kbdrAddr) : (readEffect a s).cell b = s.cell b := by
  by_cases ha : a = Config.kbsrAddr
  · subst ha
    rw [readEffect_kbsr]
    rcases keyRead_cases s with ⟨h, -⟩ | ⟨k, ks, h, -⟩
    · simp [pollKeyboard_nil h, State.cell_eq, h1]
    · simp [pollKeyboard_cons h, State.cell_eq, h1, h2]
  · rw [readEffect_ordinary ha]

/-- A read keeps the canonical form of memory. -/
theorem readEffect_wf (a : Word) {s : State} (hw : s.mem.wf) : (readEffect a s).mem.wf := by
  by_cases ha : a = Config.kbsrAddr
  · subst ha
    rw [readEffect_kbsr]
    rcases keyRead_cases s with ⟨h, -⟩ | ⟨k, ks, h, -⟩
    · rw [pollKeyboard_nil h]
      exact Memory.write_wf hw _ _
    · rw [pollKeyboard_cons h]
      exact Memory.write_wf (Memory.write_wf hw _ _) _ _
  · rwa [readEffect_ordinary ha]

/-- A read takes keys from the head of the queue only: what is still to be read is a suffix of what was. -/
theorem readEffect_stream (a : Word) (s : State) :
    ∃ taken, s.keys ++ s.arrivals.flatten =
      taken ++ ((readEffect a s).keys ++ (readEffect a s).arrivals.flatten) := by
  by_cases ha : a = Config.kbsrAddr
  · subst ha
    rw [readEffect_kbsr]
    rcases keyRead_cases s with ⟨h, -⟩ | ⟨k, ks, h, -⟩
    · exact ⟨[], by rw [pollKeyboard_nil h, ← sampleKeyboard_stream s, h]; rfl⟩
    · exact ⟨[k], by rw [pollKeyboard_cons h, ← sampleKeyboard_stream s, h]; rfl⟩
  · exact ⟨[], by rw [readEffect_ordinary ha]; rfl⟩

/-! ## The fetch (R111, R112) -/

@[simp] theorem fetch_fst (s : State) : (fetch s).1 = (readEffect s.pc s).cell s.pc := rfl

@[simp] theorem fetch_snd (s : State) : (fetch s).2 = (readEffect s.pc s).setPc (s.pc + 1#16) := rfl

/-! ## The wait (R118, R207) -/

/-- With no key the engine waits, all state kept. -/
theorem awaitKey_nil {s : State} (w : KeyWait) (h : s.sampleKeyboard.keys = []) :
    awaitKey w s = { s.sampleKeyboard with wait := some w } := by
  simp [awaitKey, keyRead_nil h]

/-- With a key the routine takes it and ends. -/
theorem awaitKey_cons {s : State} (w : KeyWait) {k : Byte} {ks : List Byte} (h : s.sampleKeyboard.keys = k :: ks) :
    awaitKey w s = takeKey w k { s.sampleKeyboard with keys := ks, wait := none } := by
  simp [awaitKey, keyRead_cons h]

/-- Everything `awaitKey` can do. -/
theorem awaitKey_cases (w : KeyWait) (s : State) :
    (s.sampleKeyboard.keys = [] ∧ awaitKey w s = { s.sampleKeyboard with wait := some w }) ∨
      ∃ k ks, s.sampleKeyboard.keys = k :: ks ∧
        awaitKey w s = takeKey w k { s.sampleKeyboard with keys := ks, wait := none } := by
  rcases keyRead_cases s with ⟨h, -⟩ | ⟨k, ks, h, -⟩
  · exact .inl ⟨h, awaitKey_nil w h⟩
  · exact .inr ⟨k, ks, h, awaitKey_cons w h⟩

/-! ## The string loop (R164, R166) -/

theorem stringLoop_zero (cell : Word → CellOutput) (a : Word) (s : State) : stringLoop cell 0 a s = none := rfl

/-- The loop ends at a cell that ends the string. -/
theorem stringLoop_last {cell : Word → CellOutput} {a : Word} {s : State} (n : Nat)
    (h : (cell (memRead a s).1).last = true) :
    stringLoop cell (n + 1) a s = some ((memRead a s).2.consoleWriteAll (cell (memRead a s).1).bytes) := by
  simp only [stringLoop, h, if_true]

/-- The loop goes on after any other cell. -/
theorem stringLoop_more {cell : Word → CellOutput} {a : Word} {s : State} (n : Nat)
    (h : (cell (memRead a s).1).last = false) :
    stringLoop cell (n + 1) a s =
      stringLoop cell n (a + 1#16) ((memRead a s).2.consoleWriteAll (cell (memRead a s).1).bytes) := by
  simp only [stringLoop, h]
  rfl

/-- Whatever the loop answers is an end the pseudocode reaches. -/
theorem stringLoop_sound {cell : Word → CellOutput} {n : Nat} {a : Word} {s t : State}
    (h : stringLoop cell n a s = some t) : StringRun cell a s t := by
  induction n generalizing a s with
  | zero => simp [stringLoop_zero] at h
  | succ n ih =>
    cases hl : (cell (memRead a s).1).last with
    | true =>
      rw [stringLoop_last n hl, Option.some.injEq] at h
      exact h ▸ StringRun.stop a s hl
    | false =>
      rw [stringLoop_more n hl] at h
      exact StringRun.more a s t hl (ih h)

/-- A string routine answers the end of its loop, flushed, or the fault; nothing else. -/
theorem printString_cases (cell : Word → CellOutput) (s : State) :
    (∃ t, StringRun cell (s.getReg .r0) s t ∧ printString cell s = .next t.consoleFlush) ∨
      printString cell s = .fault .unterminatedString := by
  cases h : stringLoop cell (stringFuel s) (s.getReg .r0) s with
  | some t => exact .inl ⟨t, stringLoop_sound h, by simp [printString, h]⟩
  | none => exact .inr (by simp [printString, h])

/-- A property that a read and a console write both keep holds where the loop ends. -/
theorem StringRun.keeps {cell : Word → CellOutput} {P : State → Prop}
    (hr : ∀ a s, P s → P (readEffect a s)) (hw : ∀ bs s, P s → P (s.consoleWriteAll bs)) {a : Word} {s t : State}
    (h : StringRun cell a s t) (hs : P s) : P t := by
  induction h with
  | stop a s _ => exact hw _ _ (hr _ _ hs)
  | more a s t _ _ ih => exact ih (hw _ _ (hr _ _ hs))

end Sys2Proof.Machine
end

