-- ==== Sys2Proof/Laws/Exec.lean ====
section
/-! SUPPORT. What an instruction and a step can do, said once: the cases of TRAP, the cases of a step, and `exec_keeps`, by
which a property that the elementary updates of an instruction keep is kept by the instruction. -/

namespace Sys2Proof.Machine

open Sys2Proof

/-! ## Flags by value (R114) -/

/-- The class of a word by its unsigned value. -/
theorem condOf_ranges (v : Word) :
    condOf v = (if 0x8000 ≤ v.toNat then .neg else if v.toNat = 0 then .zero else .pos) := by
  have hm : v.getLsbD 15 = decide (0x8000 ≤ v.toNat) := by
    rw [show v.getLsbD 15 = v.msb from (BitVec.msb_eq_getLsbD_last v).symm, BitVec.msb_eq_decide]
  unfold condOf
  rw [hm]
  by_cases h : 0x8000 ≤ v.toNat
  · simp [h]
  · simp [h, ← BitVec.toNat_inj]

/-- The class of a word by its signed value. -/
theorem condOf_eq_signClass (v : Word) : condOf v = signClass v := by
  rw [condOf_ranges]
  unfold signClass
  rw [BitVec.toInt_eq_toNat_cond]
  have := v.isLt
  split_ifs <;> first | rfl | omega

/-- What the seven flag-defining instructions do to the state they end in (R27). -/
theorem writeFlagged_spec (dr : Reg) (v : Word) (s : State) : WritesFlagged dr v s (writeFlagged dr v s) := by
  refine ⟨by simp, fun r hr => ?_, by simp [condOf_eq_signClass], rfl, fun _ => rfl, ⟨rfl, rfl, rfl, rfl, rfl⟩,
    ⟨rfl, rfl, rfl, rfl⟩⟩
  simp only [List.mem_singleton] at hr
  simp [hr]

/-- What a store does to the state it ends in (R58). -/
theorem memWrite_spec (a v : Word) (s : State) : StoresCell a v s (memWrite a v s) :=
  ⟨by simp, fun b h => by simp [h], fun _ _ => rfl, rfl, rfl, ⟨rfl, rfl, rfl, rfl, rfl⟩, ⟨rfl, rfl, rfl, rfl⟩⟩

/-- What a read does to the state (R53, R54, R56). -/
theorem readEffect_frame (a : Word) (s : State) : ReadFrame s (readEffect a s) :=
  ⟨fun _ h1 h2 => readEffect_cell_ordinary _ _ h1 h2, fun r _ => by simp, by simp, by simp, by simp, by simp, by simp,
    by simp [SameEngine]⟩

/-! ## The next state of each instruction that has one on every path, in terms of the shared operations -/

theorem exec_br (n z p : Bool) (off : BitVec 9) (s : State) :
    exec (.br n z p off) s = .next (if branchTaken n z p s.cond then s.setPc (s.pc + sext off) else s) := rfl
theorem exec_addReg (dr a b : Reg) (s : State) :
    exec (.addReg dr a b) s = .next (writeFlagged dr (s.getReg a + s.getReg b) s) := rfl
theorem exec_addImm (dr a : Reg) (imm : BitVec 5) (s : State) :
    exec (.addImm dr a imm) s = .next (writeFlagged dr (s.getReg a + sext imm) s) := rfl
theorem exec_andReg (dr a b : Reg) (s : State) :
    exec (.andReg dr a b) s = .next (writeFlagged dr (s.getReg a &&& s.getReg b) s) := rfl
theorem exec_andImm (dr a : Reg) (imm : BitVec 5) (s : State) :
    exec (.andImm dr a imm) s = .next (writeFlagged dr (s.getReg a &&& sext imm) s) := rfl
theorem exec_not (dr a : Reg) (s : State) : exec (.not dr a) s = .next (writeFlagged dr (~~~(s.getReg a)) s) := rfl
theorem exec_jmp (b : Reg) (s : State) : exec (.jmp b) s = .next (s.setPc (s.getReg b)) := rfl
theorem exec_ret (s : State) : exec .ret s = .next (s.setPc (s.getReg .r7)) := rfl
theorem exec_jsr (off : BitVec 11) (s : State) :
    exec (.jsr off) s = .next ((saveReturn s).setPc (s.pc + sext off)) := rfl
theorem exec_jsrr (b : Reg) (s : State) :
    exec (.jsrr b) s = .next ((saveReturn s).setPc ((saveReturn s).getReg b)) := rfl
theorem exec_ld (dr : Reg) (off : BitVec 9) (s : State) :
    exec (.ld dr off) s =
      .next (writeFlagged dr ((readEffect (s.pc + sext off) s).cell (s.pc + sext off)) (readEffect (s.pc + sext off) s)) :=
  rfl
theorem exec_ldr (dr b : Reg) (off : BitVec 6) (s : State) :
    exec (.ldr dr b off) s =
      .next (writeFlagged dr ((readEffect (s.getReg b + sext off) s).cell (s.getReg b + sext off))
        (readEffect (s.getReg b + sext off) s)) := rfl
theorem exec_ldi (dr : Reg) (off : BitVec 9) (s : State) :
    exec (.ldi dr off) s =
      .next (writeFlagged dr
        ((readEffect (indirect off s).1 (readEffect (s.pc + sext off) s)).cell (indirect off s).1)
        (readEffect (indirect off s).1 (readEffect (s.pc + sext off) s))) := rfl
theorem exec_lea (dr : Reg) (off : BitVec 9) (s : State) :
    exec (.lea dr off) s = .next (writeFlagged dr (s.pc + sext off) s) := rfl
theorem exec_st (sr : Reg) (off : BitVec 9) (s : State) :
    exec (.st sr off) s = .next (memWrite (s.pc + sext off) (s.getReg sr) s) := rfl
theorem exec_sti (sr : Reg) (off : BitVec 9) (s : State) :
    exec (.sti sr off) s = .next (memWrite (indirect off s).1 (s.getReg sr) (readEffect (s.pc + sext off) s)) := by
  rw [← readEffect_getReg (s.pc + sext off) s sr]
  rfl
theorem exec_str (sr b : Reg) (off : BitVec 6) (s : State) :
    exec (.str sr b off) s = .next (memWrite (s.getReg b + sext off) (s.getReg sr) s) := rfl
theorem exec_rti (low : BitVec 12) (s : State) : exec (.rti low) s = .next (raiseFatal .invalidOpcode (0b1000#4 ++ low) s) := rfl
theorem exec_res (low : BitVec 12) (s : State) : exec (.res low) s = .next (raiseFatal .invalidOpcode (0b1101#4 ++ low) s) := rfl
theorem exec_getc (s : State) : exec .getc s = .next (awaitKey .getc (saveReturn s)) := rfl
theorem exec_inKey (s : State) :
    exec .inKey s = .next (awaitKey .inKey ((saveReturn s).consoleWriteAll s.params.inPrompt).consoleFlush) := rfl
theorem exec_out (s : State) :
    exec .out s = .next (((saveReturn s).consoleWrite (lowByte (s.getReg .r0))).consoleFlush) := rfl
theorem exec_halt (s : State) :
    exec .halt s = .next (((saveReturn s).consoleWriteAll s.params.haltMsg).consoleFlush.restoreTerminal).stop := rfl
theorem exec_puts (s : State) : exec .puts s = printString putsCell (saveReturn s) := rfl
theorem exec_putsp (s : State) : exec .putsp s = printString (putspCell s.params.putspRule) (saveReturn s) := rfl

/-! ## TRAP (R160, R161) -/

/-- Everything a TRAP can do: one of the six routines, or the fatal condition. -/
theorem execTrap_cases (vec : BitVec 8) (s : State) :
    (vec = 0x20#8 ∧ exec (.trap vec) s = exec .getc s) ∨ (vec = 0x21#8 ∧ exec (.trap vec) s = exec .out s) ∨
    (vec = 0x22#8 ∧ exec (.trap vec) s = exec .puts s) ∨ (vec = 0x23#8 ∧ exec (.trap vec) s = exec .inKey s) ∨
    (vec = 0x24#8 ∧ exec (.trap vec) s = exec .putsp s) ∨ (vec = 0x25#8 ∧ exec (.trap vec) s = exec .halt s) ∨
    ((vec ≠ 0x20#8 ∧ vec ≠ 0x21#8 ∧ vec ≠ 0x22#8 ∧ vec ≠ 0x23#8 ∧ vec ≠ 0x24#8 ∧ vec ≠ 0x25#8) ∧
      exec (.trap vec) s = .next (raiseInvalidTrapVector vec (saveReturn s))) := by
  by_cases h0 : vec = 0x20#8
  · subst h0; exact .inl ⟨rfl, rfl⟩
  by_cases h1 : vec = 0x21#8
  · subst h1; exact .inr (.inl ⟨rfl, rfl⟩)
  by_cases h2 : vec = 0x22#8
  · subst h2; exact .inr (.inr (.inl ⟨rfl, rfl⟩))
  by_cases h3 : vec = 0x23#8
  · subst h3; exact .inr (.inr (.inr (.inl ⟨rfl, rfl⟩)))
  by_cases h4 : vec = 0x24#8
  · subst h4; exact .inr (.inr (.inr (.inr (.inl ⟨rfl, rfl⟩))))
  by_cases h5 : vec = 0x25#8
  · subst h5; exact .inr (.inr (.inr (.inr (.inr (.inl ⟨rfl, rfl⟩)))))
  refine .inr (.inr (.inr (.inr (.inr (.inr ⟨⟨h0, h1, h2, h3, h4, h5⟩, ?_⟩)))))
  simp [exec, execTrap, h0, h1, h2, h3, h4, h5]

/-- A vector that is none of the six is not recognised (R92). -/
theorem recognisedVector_eq_false {vec : BitVec 8} (h : vec ≠ 0x20#8 ∧ vec ≠ 0x21#8 ∧ vec ≠ 0x22#8 ∧ vec ≠ 0x23#8 ∧
    vec ≠ 0x24#8 ∧ vec ≠ 0x25#8) : recognisedVector vec = false := by
  simp only [ne_eq, ← BitVec.toNat_inj, BitVec.reduceToNat] at h
  simp only [recognisedVector, Bool.and_eq_false_iff, decide_eq_false_iff_not]
  omega

/-- A string routine that answers a next state has come to the end of its loop. -/
theorem printString_next {cell : Word → CellOutput} {s t : State} (h : printString cell s = .next t) :
    ∃ u, StringRun cell (s.getReg .r0) s u ∧ t = u.consoleFlush := by
  rcases printString_cases cell s with ⟨u, hu, h2⟩ | h2
  · rw [h2] at h
    cases h
    exact ⟨u, hu, rfl⟩
  · rw [h2] at h
    cases h

/-! ## Keeping a property -/

/-- The instructions that read a key (R118). -/
def readsKey : Instr → Bool
  | .getc | .inKey => true
  | .trap vec => decide (vec = 0x20#8) || decide (vec = 0x23#8)
  | _ => false

/-- The instructions that end the run. -/
def endsRun : Instr → Bool
  | .halt | .rti _ | .res _ => true
  | .trap vec => decide (vec = 0x25#8) || !recognisedVector vec
  | _ => false

/-- Everything `awaitKey` can do, as a property kept: the queue and the wait change; with a key the console may be written
and R0 is. -/
theorem awaitKey_keeps {P : State → Prop} (w : KeyWait) {s : State} (hs : P s)
    (hkey : ∀ ks as wt u, P u → P { u with keys := ks, arrivals := as, wait := wt })
    (hreg : ∀ v u, P u → P (u.setReg .r0 v))
    (hwrite : w = .inKey → ∀ bs u, P u → P (u.consoleWriteAll bs))
    (hflush : w = .inKey → ∀ u, P u → P u.consoleFlush) : P (awaitKey w s) := by
  rcases awaitKey_cases w s with ⟨-, h⟩ | ⟨k, ks, -, h⟩
  · rw [h, sampleKeyboard_eq]
    exact hkey s.sampleKeyboard.keys s.sampleKeyboard.arrivals (some w) s hs
  · rw [h, sampleKeyboard_eq]
    have hu := hkey ks s.sampleKeyboard.arrivals none s hs
    cases w with
    | getc => exact hreg _ _ hu
    | inKey => exact hreg _ _ (hflush rfl _ (hwrite rfl [k] _ hu))

/-- A property kept by every elementary update an instruction makes, each by its table (R22, R24, R27, R57, R58, R169), is
kept by the instruction. -/
theorem exec_keeps {P : State → Prop} {i : Instr} {s t : State} (h : exec i s = .next t) (hs : P s)
    (hreg : ∀ r ∈ destRegs i, ∀ v u, P u → P (u.setReg r v))
    (hcc : (flagDest i).isSome = true → ∀ v u, P u → P (setcc v u))
    (hpc : transfersControl i = true → ∀ v u, P u → P (u.setPc v))
    (hread : readsMemory i = true → ∀ a u, P u → P (readEffect a u))
    (hstore : writesMemory i = true → ∀ a v u, P u → P (memWrite a v u))
    (hawait : readsKey i = true → ∀ w u, (w = .inKey → writesConsole i = true) → P u → P (awaitKey w u))
    (hwrite : writesConsole i = true → ∀ bs u, P u → P (u.consoleWriteAll bs))
    (hflush : writesConsole i = true → ∀ u, P u → P u.consoleFlush)
    (hend : endsRun i = true → ∀ u, P u → P (u.restoreTerminal.stop))
    (hfault : endsRun i = true → i ≠ .halt → i ≠ .trap 0x25#8 → ∀ c v u, P u → P (u.setFault c v)) : P t := by
  have flagged : ∀ dr v u, dr ∈ destRegs i → (flagDest i).isSome = true → P u → P (writeFlagged dr v u) := by
    intro dr v u hd hf hu
    rw [writeFlagged_eq]
    exact hcc hf _ _ (hreg dr hd _ _ hu)
  have strings : ∀ cell u v, readsMemory i = true → writesConsole i = true → P u → printString cell u = .next v → P v := by
    intro cell u v hr hw hu hp
    obtain ⟨x, hx, rfl⟩ := printString_next hp
    exact hflush hw _ (hx.keeps (hread hr) (hwrite hw) hu)
  have out : writesConsole i = true → ∀ u, P u → P (outRoutine u) :=
    fun hw u hu => hflush hw _ (hwrite hw [lowByte (u.getReg .r0)] _ hu)
  have getc : readsKey i = true → ∀ u, P u → P (getcRoutine u) := fun hk u hu => hawait hk .getc u (by simp) hu
  have inp : readsKey i = true → writesConsole i = true → ∀ u, P u → P (inRoutine u) :=
    fun hk hw u hu => hawait hk .inKey _ (fun _ => hw) (hflush hw _ (hwrite hw _ _ hu))
  have halt : writesConsole i = true → endsRun i = true → ∀ u, P u → P (haltRoutine u) :=
    fun hw he u hu => hend he _ (hflush hw _ (hwrite hw _ _ hu))
  have link : .r7 ∈ destRegs i → P (saveReturn s) := fun hr => hreg .r7 hr _ _ hs
  cases i with
  | br n z p off =>
    simp only [exec, execBr, Host.Outcome.next.injEq] at h
    subst h
    split
    · exact hpc rfl _ _ hs
    · exact hs
  | addReg dr _ _ => cases h; exact flagged dr _ _ (by simp [destRegs]) rfl hs
  | addImm dr _ _ => cases h; exact flagged dr _ _ (by simp [destRegs]) rfl hs
  | andReg dr _ _ => cases h; exact flagged dr _ _ (by simp [destRegs]) rfl hs
  | andImm dr _ _ => cases h; exact flagged dr _ _ (by simp [destRegs]) rfl hs
  | not dr _ => cases h; exact flagged dr _ _ (by simp [destRegs]) rfl hs
  | lea dr _ => cases h; exact flagged dr _ _ (by simp [destRegs]) rfl hs
  | ld dr _ => cases h; exact flagged dr _ _ (by simp [destRegs]) rfl (hread rfl _ _ hs)
  | ldr dr _ _ => cases h; exact flagged dr _ _ (by simp [destRegs]) rfl (hread rfl _ _ hs)
  | ldi dr _ => cases h; exact flagged dr _ _ (by simp [destRegs]) rfl (hread rfl _ _ (hread rfl _ _ hs))
  | st _ _ => cases h; exact hstore rfl _ _ _ hs
  | str _ _ _ => cases h; exact hstore rfl _ _ _ hs
  | sti _ _ => cases h; exact hstore rfl _ _ _ (hread rfl _ _ hs)
  | jmp _ => cases h; exact hpc rfl _ _ hs
  | ret => cases h; exact hpc rfl _ _ hs
  | jsr _ => cases h; exact hpc rfl _ _ (link (by simp [destRegs]))
  | jsrr _ => cases h; exact hpc rfl _ _ (link (by simp [destRegs]))
  | rti _ => cases h; exact hend rfl _ (hfault rfl (by simp) (by simp) _ _ _ hs)
  | res _ => cases h; exact hend rfl _ (hfault rfl (by simp) (by simp) _ _ _ hs)
  | getc => cases h; exact getc rfl _ (link (by simp [destRegs]))
  | out => cases h; exact out rfl _ (link (by simp [destRegs]))
  | puts => exact strings _ _ _ rfl rfl (link (by simp [destRegs])) h
  | inKey => cases h; exact inp rfl rfl _ (link (by simp [destRegs]))
  | putsp => exact strings _ _ _ rfl rfl (link (by simp [destRegs])) h
  | halt => cases h; exact halt rfl rfl _ (link (by simp [destRegs]))
  | trap vec =>
    rcases execTrap_cases vec s with ⟨rfl, e⟩ | ⟨rfl, e⟩ | ⟨rfl, e⟩ | ⟨rfl, e⟩ | ⟨rfl, e⟩ | ⟨rfl, e⟩ | ⟨hv, e⟩
    all_goals rw [e] at h
    · cases h; exact getc (by decide) _ (link (by decide))
    · cases h; exact out (by decide) _ (link (by decide))
    · exact strings _ _ _ (by decide) (by decide) (link (by decide)) h
    · cases h; exact inp (by decide) (by decide) _ (link (by decide))
    · exact strings _ _ _ (by decide) (by decide) (link (by decide)) h
    · cases h; exact halt (by decide) (by decide) _ (link (by decide))
    · cases h
      have he : endsRun (.trap vec) = true := by simp [endsRun, recognisedVector_eq_false hv]
      exact hend he _ (hfault he (by simp) (fun hh => hv.2.2.2.2.2 (Instr.trap.inj hh)) _ _ _
        (link (by simp only [destRegs]; split <;> simp)))

/-! ## A step (R110, R116, R118) -/

/-- Everything a step can do: nothing when HALTED, another look at the keyboard inside a wait, one instruction else. -/
theorem step_cases (s : State) :
    (s.run = false ∧ step s = .next s) ∨
    (s.run = true ∧ ∃ w, s.wait = some w ∧ step s = .next (awaitKey w s)) ∨
    (s.run = true ∧ s.wait = none ∧ step s = exec (decode (fetch s).1) (fetch s).2) := by
  cases hr : s.run with
  | false => exact .inl ⟨rfl, by simp [step, hr]⟩
  | true =>
    cases hw : s.wait with
    | none => exact .inr (.inr ⟨rfl, rfl, by simp [step, hr, hw]⟩)
    | some w => exact .inr (.inl ⟨rfl, w, rfl, by simp [step, hr, hw]⟩)

/-- The instruction of a RUNNING engine that is not waiting. -/
theorem step_exec {s : State} (hr : s.run = true) (hw : s.wait = none) :
    step s = exec (decode (fetch s).1) (fetch s).2 := by
  simp [step, hr, hw]

end Sys2Proof.Machine
end

