-- ==== Sys2Proof/Laws/PerInstr.lean ====
section
/-! SUPPORT. Statements made of every instruction, one lemma per constructor.

`EncodeInRow`: the canonical word of an instruction lies in the instruction's row of spec/opcode_table.json, that is
`(word AND mask) = match` (rule R98). -/

namespace Sys2Proof.Laws.EncodeInRow

open Sys2Proof Sys2Proof.Machine

/-- The canonical word of `i` matches the table's row of `i`. -/
def Statement (i : Instr) : Prop := InRow (encode i) i

/-- Two words that agree at every bit from 0 to 15 are equal. -/
theorem word_ext {v w : Word} (h : ∀ i, i < 16 → v.getLsbD i = w.getLsbD i) : v = w :=
  BitVec.eq_of_getLsbD_eq h

theorem ofFormat {w mask pat : Word} (h : ∀ i, i < 16 → (w.getLsbD i && mask.getLsbD i) = pat.getLsbD i) :
    w &&& mask = pat :=
  word_ext (fun i hi => by rw [BitVec.getLsbD_and, h i hi])

theorem br (n z p : Bool) (off : BitVec 9) : Statement (.br n z p off) := ofFormat fun i hi => by
  simp only [encode, formatBR_bit, rowMask, rowMatch]
  interval_cases i <;> simp [Opcode.bits]

theorem addReg (dr sr1 sr2 : Reg) : Statement (.addReg dr sr1 sr2) := ofFormat fun i hi => by
  simp only [encode, formatRRR_bit, rowMask, rowMatch]
  interval_cases i <;> simp [Opcode.bits]

theorem addImm (dr sr1 : Reg) (imm : BitVec 5) : Statement (.addImm dr sr1 imm) := ofFormat fun i hi => by
  simp only [encode, formatRRI_bit, rowMask, rowMatch]
  interval_cases i <;> simp [Opcode.bits]

theorem ld (dr : Reg) (off : BitVec 9) : Statement (.ld dr off) := ofFormat fun i hi => by
  simp only [encode, formatPC9_bit, rowMask, rowMatch]
  interval_cases i <;> simp [Opcode.bits]

theorem st (sr : Reg) (off : BitVec 9) : Statement (.st sr off) := ofFormat fun i hi => by
  simp only [encode, formatPC9_bit, rowMask, rowMatch]
  interval_cases i <;> simp [Opcode.bits]

theorem jsr (off : BitVec 11) : Statement (.jsr off) := ofFormat fun i hi => by
  simp only [encode, formatJSR_bit, rowMask, rowMatch]
  interval_cases i <;> simp [Opcode.bits]

theorem jsrr (base : Reg) : Statement (.jsrr base) := by cases base <;> rfl

theorem andReg (dr sr1 sr2 : Reg) : Statement (.andReg dr sr1 sr2) := ofFormat fun i hi => by
  simp only [encode, formatRRR_bit, rowMask, rowMatch]
  interval_cases i <;> simp [Opcode.bits]

theorem andImm (dr sr1 : Reg) (imm : BitVec 5) : Statement (.andImm dr sr1 imm) := ofFormat fun i hi => by
  simp only [encode, formatRRI_bit, rowMask, rowMatch]
  interval_cases i <;> simp [Opcode.bits]

theorem ldr (dr base : Reg) (off : BitVec 6) : Statement (.ldr dr base off) := ofFormat fun i hi => by
  simp only [encode, formatBO6_bit, rowMask, rowMatch]
  interval_cases i <;> simp [Opcode.bits]

theorem str (sr base : Reg) (off : BitVec 6) : Statement (.str sr base off) := ofFormat fun i hi => by
  simp only [encode, formatBO6_bit, rowMask, rowMatch]
  interval_cases i <;> simp [Opcode.bits]

theorem rti (low : BitVec 12) : Statement (.rti low) := ofFormat fun i hi => by
  simp only [encode, formatNONE_bit, rowMask, rowMatch]
  interval_cases i <;> simp [Opcode.bits]

theorem not (dr sr1 : Reg) : Statement (.not dr sr1) := by cases dr <;> cases sr1 <;> rfl

theorem ldi (dr : Reg) (off : BitVec 9) : Statement (.ldi dr off) := ofFormat fun i hi => by
  simp only [encode, formatPC9_bit, rowMask, rowMatch]
  interval_cases i <;> simp [Opcode.bits]

theorem sti (sr : Reg) (off : BitVec 9) : Statement (.sti sr off) := ofFormat fun i hi => by
  simp only [encode, formatPC9_bit, rowMask, rowMatch]
  interval_cases i <;> simp [Opcode.bits]

theorem jmp (base : Reg) : Statement (.jmp base) := by cases base <;> rfl

theorem ret : Statement .ret := rfl

theorem res (low : BitVec 12) : Statement (.res low) := ofFormat fun i hi => by
  simp only [encode, formatNONE_bit, rowMask, rowMatch]
  interval_cases i <;> simp [Opcode.bits]

theorem lea (dr : Reg) (off : BitVec 9) : Statement (.lea dr off) := ofFormat fun i hi => by
  simp only [encode, formatPC9_bit, rowMask, rowMatch]
  interval_cases i <;> simp [Opcode.bits]

theorem trap (vec : BitVec 8) : Statement (.trap vec) := ofFormat fun i hi => by
  simp only [encode, formatTRAP_bit, rowMask, rowMatch]
  interval_cases i <;> simp [Opcode.bits]

theorem getc : Statement .getc := rfl

theorem out : Statement .out := rfl

theorem puts : Statement .puts := rfl

theorem inKey : Statement .inKey := rfl

theorem putsp : Statement .putsp := rfl

theorem halt : Statement .halt := rfl

end Sys2Proof.Laws.EncodeInRow
end

