-- ==== Sys2Proof/Tests/Slice0.lean ====
section
/-! SUPPORT. Tests and witnesses. Every expected result is a row of spec/95_test_vectors.md, named in the comment, or is
written out from the rule named there. Each test runs one step (or one call of an operation). -/

namespace Sys2Proof.Tests

open Sys2Proof Sys2Proof.Machine

/-- The outcome is a next state with the property. -/
def answers (o : Host.Outcome State Fault Refusal) (p : State → Bool) : Bool :=
  match o with
  | .next t => p t
  | .fault _ => false
  | .refused _ => false

/-- One instruction word at 0x3000, all else as after reset (the convention of spec/95_test_vectors.md). -/
def start (w : Word) : State := State.reset.setCell 0x3000#16 w

/-- The same with a condition flag. -/
def startCC (w : Word) (c : Cond) : State := { start w with cond := c }

/-- The same with keys waiting. -/
def startKeys (w : Word) (ks : List Byte) : State := { start w with keys := ks }

/-- The state an instruction runs in: the incremented PC of rule R112. -/
def running : State := State.reset.setPc 0x3001#16

/-- One word at the PC given. -/
def startAt (a w : Word) : State := (State.reset.setPc a).setCell a w

/-! ## Well-formedness (R89, R96): one ill-formed term for each check, which the check refuses -/

theorem test_jmp_r7_is_ill_formed : (Instr.jmp .r7).wellFormed = false := by decide
theorem test_trap_x20_is_ill_formed : (Instr.trap 0x20#8).wellFormed = false := by decide
theorem test_trap_x25_is_ill_formed : (Instr.trap 0x25#8).wellFormed = false := by decide
theorem test_trap_edges_are_well_formed :
    (Instr.trap 0x1F#8).wellFormed = true ∧ (Instr.trap 0x26#8).wellFormed = true ∧ (Instr.jmp .r6).wellFormed = true := by
  decide

/-! ## Decoding: for every constructor a word written out from rules R81, R82, R83 and R88 -/

/-- V-BR: BRz #3. -/
theorem test_decode_br : decode 0b0000_0_1_0_000000011#16 = .br false true false 0x003#9 := by decide
theorem test_decode_br_np : decode 0b0000_1_0_1_011111111#16 = .br true false true 0x0FF#9 := by decide
/-- ALU1, ALU10. -/
theorem test_decode_addReg : decode 0b0001_010_000_0_00_001#16 = .addReg .r2 .r0 .r1 := by decide
theorem test_decode_addReg_ignored : decode 0b0001_000_000_0_11_001#16 = .addReg .r0 .r0 .r1 := by decide
/-- ALU6. -/
theorem test_decode_addImm : decode 0b0001_011_011_1_10000#16 = .addImm .r3 .r3 0x10#5 := by decide
/-- L1. -/
theorem test_decode_ld : decode 0b0010_001_000000010#16 = .ld .r1 0x002#9 := by decide
/-- S1. -/
theorem test_decode_st : decode 0b0011_001_000000011#16 = .st .r1 0x003#9 := by decide
/-- J6. -/
theorem test_decode_jsr : decode 0b0100_1_11111110110#16 = .jsr 0x7F6#11 := by decide
/-- J10, J12. -/
theorem test_decode_jsrr : decode 0b0100_0_00_010_000000#16 = .jsrr .r2 := by decide
theorem test_decode_jsrr_ignored : decode 0b0100_0_11_111_111111#16 = .jsrr .r7 := by decide
/-- ALU13. -/
theorem test_decode_andReg : decode 0b0101_011_001_0_00_010#16 = .andReg .r3 .r1 .r2 := by decide
/-- ALU11. -/
theorem test_decode_andImm : decode 0b0101_000_001_1_11110#16 = .andImm .r0 .r1 0x1E#5 := by decide
/-- L13. -/
theorem test_decode_ldr : decode 0b0110_011_100_000101#16 = .ldr .r3 .r4 0x05#6 := by decide
/-- S5. -/
theorem test_decode_str : decode 0b0111_001_110_100000#16 = .str .r1 .r6 0x20#6 := by decide
/-- X2. -/
theorem test_decode_rti : decode 0b1000_111111111111#16 = .rti 0xFFF#12 := by decide
/-- ALU16, ALU19. -/
theorem test_decode_not : decode 0b1001_001_010_111111#16 = .not .r1 .r2 := by decide
theorem test_decode_not_ignored : decode 0b1001_001_010_000000#16 = .not .r1 .r2 := by decide
/-- L4. -/
theorem test_decode_ldi : decode 0b1010_000_000000010#16 = .ldi .r0 0x002#9 := by decide
/-- S3. -/
theorem test_decode_sti : decode 0b1011_010_000000001#16 = .sti .r2 0x001#9 := by decide
/-- J1. -/
theorem test_decode_jmp : decode 0b1100_000_011_000000#16 = .jmp .r3 := by decide
/-- J2, J3. -/
theorem test_decode_ret : decode 0b1100_000_111_000000#16 = .ret := by decide
theorem test_decode_ret_ignored : decode 0b1100_111_111_111111#16 = .ret := by decide
/-- X4. -/
theorem test_decode_res : decode 0b1101_101010111100#16 = .res 0xABC#12 := by decide
/-- L16. -/
theorem test_decode_lea : decode 0b1110_010_111111111#16 = .lea .r2 0x1FF#9 := by decide
/-- T23, T24. -/
theorem test_decode_trap_low : decode 0b1111_0000_00011111#16 = .trap 0x1F#8 := by decide
theorem test_decode_trap_high : decode 0b1111_0000_00100110#16 = .trap 0x26#8 := by decide
theorem test_decode_getc : decode 0b1111_0000_00100000#16 = .getc := by decide
/-- T8: bits 11:8 are ignored. -/
theorem test_decode_out : decode 0b1111_1010_00100001#16 = .out := by decide
theorem test_decode_puts : decode 0b1111_0000_00100010#16 = .puts := by decide
theorem test_decode_inKey : decode 0b1111_0000_00100011#16 = .inKey := by decide
theorem test_decode_putsp : decode 0b1111_0000_00100100#16 = .putsp := by decide
/-- T21. -/
theorem test_decode_halt : decode 0b1111_1111_00100101#16 = .halt := by decide

/-! ## Encoding: the canonical ignored bits of rule R90 -/

theorem test_encode_not : encode (.not .r1 .r2) = 0x92BF#16 := by decide
theorem test_encode_ret : encode .ret = 0xC1C0#16 := by decide
/-- S3 of Part 1. -/
theorem test_encode_ldr_str :
    encode (.ldr .r3 .r4 0x05#6) = 0x6705#16 ∧ encode (.str .r1 .r6 0x20#6) = 0x73A0#16 := by decide

/-! ## Sign extension and flags (V-SEXT, V-CC) -/

theorem test_sext5 : sext 0x0F#5 = 0x000F#16 ∧ sext 0x10#5 = 0xFFF0#16 ∧ sext 0x1F#5 = 0xFFFF#16 := by decide
theorem test_sext6 : sext 0x1F#6 = 0x001F#16 ∧ sext 0x20#6 = 0xFFE0#16 := by decide
theorem test_sext9 : sext 0x0FF#9 = 0x00FF#16 ∧ sext 0x100#9 = 0xFF00#16 := by decide
theorem test_sext11 : sext 0x3FF#11 = 0x03FF#16 ∧ sext 0x400#11 = 0xFC00#16 ∧ sext 0x7F6#11 = 0xFFF6#16 := by decide
theorem test_condOf :
    condOf 0x0000#16 = .zero ∧ condOf 0x0001#16 = .pos ∧ condOf 0x7FFF#16 = .pos ∧ condOf 0x8000#16 = .neg ∧
      condOf 0xFFFF#16 = .neg := by decide

/-! ## The dispatcher (V-MEM) -/

/-- M2. -/
theorem test_poll_with_key :
    let r := memRead 0xFE00#16 { State.reset with keys := [0x61#8] }
    r.1 = 0x8000#16 ∧ r.2.cell 0xFE00#16 = 0x8000#16 ∧ r.2.cell 0xFE02#16 = 0x0061#16 ∧ r.2.keys = [] := by decide
/-- M5. -/
theorem test_poll_keeps_low_bits :
    (memRead 0xFE00#16 { State.reset.setCell 0xFE00#16 0x1234#16 with keys := [0x41#8] }).1 = 0x9234#16 := by decide
/-- M6. -/
theorem test_poll_without_key : (memRead 0xFE00#16 (State.reset.setCell 0xFE00#16 0xFFFF#16)).1 = 0x7FFF#16 := by decide
/-- M9. -/
theorem test_poll_zero_extends :
    (memRead 0xFE00#16 { State.reset with keys := [0xFF#8] }).2.cell 0xFE02#16 = 0x00FF#16 := by decide
/-- M11. -/
theorem test_only_kbsr_is_intercepted :
    let s := { State.reset.setCell 0xFE01#16 0x5555#16 with keys := [0x41#8] }
    memRead 0xFE01#16 s = (0x5555#16, s) := by decide
/-- The fetch at `KBSR` with a key returns 0x8000, an RTI word (V-MEM). -/
theorem test_fetch_at_kbsr :
    answers (step { State.reset.setPc 0xFE00#16 with keys := [0x41#8] }) (fun t =>
      t.run = false ∧ t.fault = ⟨.invalidOpcode, 0x8000#16⟩ ∧ t.cell 0xFE02#16 = 0x0041#16 ∧ t.pc = 0xFE01#16) = true := by
  decide

/-! ## One step of each instruction -/

/-- ALU1. -/
theorem test_addReg : answers (step (((start 0x1401#16).setReg .r0 3#16).setReg .r1 4#16)) (fun t =>
    t.getReg .r2 = 7#16 ∧ t.cond = .pos ∧ t.pc = 0x3001#16) = true := by decide
/-- ALU5: the carry is dropped, source and destination are one register. -/
theorem test_addReg_wraps : answers (step ((startCC 0x1000#16 .neg).setReg .r0 0x8000#16)) (fun t =>
    t.getReg .r0 = 0#16 ∧ t.cond = .zero) = true := by decide
/-- ALU3. -/
theorem test_addImm_overflow : answers (step ((start 0x1021#16).setReg .r0 0x7FFF#16)) (fun t =>
    t.getReg .r0 = 0x8000#16 ∧ t.cond = .neg) = true := by decide
/-- V-PC: the PC wraps. -/
theorem test_addImm_at_top : answers (step (startAt 0xFFFF#16 0x1021#16)) (fun t =>
    t.getReg .r0 = 1#16 ∧ t.cond = .pos ∧ t.pc = 0#16) = true := by decide
/-- ALU13. -/
theorem test_andReg : answers (step (((start 0x5642#16).setReg .r1 0xF0F0#16).setReg .r2 0x8FF0#16)) (fun t =>
    t.getReg .r3 = 0x80F0#16 ∧ t.cond = .neg) = true := by decide
/-- ALU11, Scenario B. -/
theorem test_andImm : answers (step ((start 0x507E#16).setReg .r1 5#16)) (fun t =>
    t.getReg .r0 = 4#16 ∧ t.getReg .r1 = 5#16 ∧ t.cond = .pos) = true := by decide
/-- ALU16. -/
theorem test_not : answers (step ((start 0x92BF#16).setReg .r2 0x00FF#16)) (fun t =>
    t.getReg .r1 = 0xFF00#16 ∧ t.cond = .neg) = true := by decide
/-- V-BR: BRzp #-2. -/
theorem test_br_taken : answers (step (startCC 0x07FE#16 .pos)) (fun t => t.pc = 0x2FFF#16 ∧ t.cond = .pos) = true := by
  decide
theorem test_br_not_taken : answers (step (startCC 0x07FE#16 .neg)) (fun t => t.pc = 0x3001#16) = true := by decide
/-- J4. -/
theorem test_jmp : answers (step ((start 0xC000#16).setReg .r0 0xFFFF#16)) (fun t => t.pc = 0xFFFF#16) = true := by decide
/-- J2. -/
theorem test_ret : answers (step ((start 0xC1C0#16).setReg .r7 0x3456#16)) (fun t =>
    t.pc = 0x3456#16 ∧ t.getReg .r7 = 0x3456#16) = true := by decide
/-- J6, Scenario D. -/
theorem test_jsr : answers (step (start 0x4FF6#16)) (fun t => t.getReg .r7 = 0x3001#16 ∧ t.pc = 0x2FF7#16) = true := by
  decide
/-- J10, J11. -/
theorem test_jsrr : answers (step ((start 0x4080#16).setReg .r2 0x5000#16)) (fun t =>
    t.getReg .r7 = 0x3001#16 ∧ t.pc = 0x5000#16) = true := by decide
theorem test_jsrr_r7 : answers (step ((start 0x41C0#16).setReg .r7 0x5000#16)) (fun t =>
    t.getReg .r7 = 0x3001#16 ∧ t.pc = 0x3001#16) = true := by decide
/-- L1, L3. -/
theorem test_ld : answers (step ((start 0x2202#16).setCell 0x3003#16 0xABCD#16)) (fun t =>
    t.getReg .r1 = 0xABCD#16 ∧ t.cond = .neg) = true := by decide
theorem test_ld_wraps : answers (step ((startAt 0#16 0x21FE#16).setCell 0xFFFF#16 0x0042#16)) (fun t =>
    t.getReg .r0 = 0x0042#16 ∧ t.cond = .pos ∧ t.pc = 1#16) = true := by decide
/-- L5. -/
theorem test_ldi : answers (step (((start 0xA002#16).setCell 0x3003#16 0x4000#16).setCell 0x4000#16 0x8001#16)) (fun t =>
    t.getReg .r0 = 0x8001#16 ∧ t.cond = .neg) = true := by decide
/-- L9: the pointer cell is `KBSR`. -/
theorem test_ldi_pointer_is_kbsr :
    answers (step { (startAt 0xFDFF#16 0xA000#16).setCell 0x8000#16 0x1234#16 with keys := [0x41#8] }) (fun t =>
      t.getReg .r0 = 0x1234#16 ∧ t.pc = 0xFE00#16 ∧ t.cell 0xFE00#16 = 0x8000#16 ∧ t.cell 0xFE02#16 = 0x0041#16 ∧
        t.keys = []) = true := by decide
/-- L13, L12. -/
theorem test_ldr_wraps : answers (step (((start 0x6705#16).setReg .r4 0xFFFE#16).setCell 3#16 0x8000#16)) (fun t =>
    t.getReg .r3 = 0x8000#16 ∧ t.cond = .neg) = true := by decide
theorem test_ldr_into_base : answers (step ((startCC 0x6480#16 .pos).setReg .r2 0x4000#16)) (fun t =>
    t.getReg .r2 = 0#16 ∧ t.cond = .zero) = true := by decide
/-- L17. -/
theorem test_lea : answers (step { startAt 0x00FF#16 0xE300#16 with cond := .pos }) (fun t =>
    t.getReg .r1 = 0#16 ∧ t.cond = .zero ∧ t.pc = 0x0100#16) = true := by decide
/-- S1. -/
theorem test_st : answers (step ((startCC 0x3203#16 .pos).setReg .r1 0xBEEF#16)) (fun t =>
    t.cell 0x3004#16 = 0xBEEF#16 ∧ t.cond = .pos) = true := by decide
/-- S3, S4: a store to `KBSR` is plain storage. -/
theorem test_sti : answers (step (((start 0xB401#16).setReg .r2 0x1234#16).setCell 0x3002#16 0x5000#16)) (fun t =>
    t.cell 0x5000#16 = 0x1234#16 ∧ t.cell 0x3002#16 = 0x5000#16) = true := by decide
theorem test_sti_to_kbsr :
    answers (step (((startKeys 0xB401#16 [0x41#8]).setReg .r2 0xFFFF#16).setCell 0x3002#16 0xFE00#16)) (fun t =>
      t.cell 0xFE00#16 = 0xFFFF#16 ∧ t.cell 0xFE02#16 = 0#16 ∧ t.keys = [0x41#8]) = true := by decide
/-- S6, S7. -/
theorem test_str_wraps : answers (step (((start 0x705F#16).setReg .r0 0x0055#16).setReg .r1 0xFFF0#16)) (fun t =>
    t.cell 0x000F#16 = 0x0055#16) = true := by decide
theorem test_str_of_base : answers (step ((start 0x7B41#16).setReg .r5 0x6000#16)) (fun t =>
    t.cell 0x6001#16 = 0x6000#16) = true := by decide
/-- T2: the flags are not set from the character. -/
theorem test_getc : answers (step { startCC 0xF020#16 .pos with keys := [0x00#8, 0x62#8] }) (fun t =>
    t.getReg .r0 = 0#16 ∧ t.getReg .r7 = 0x3001#16 ∧ t.keys = [0x62#8] ∧ t.cond = .pos ∧ t.wait = none) = true := by decide
/-- T4. -/
theorem test_getc_waits : answers (step (start 0xF020#16)) (fun t =>
    t.wait = some .getc ∧ t.run = true ∧ t.getReg .r7 = 0x3001#16 ∧ t.pc = 0x3001#16) = true := by decide
/-- T6, T7. -/
theorem test_out : answers (step ((start 0xF021#16).setReg .r0 0x1248#16)) (fun t =>
    t.outStream = [0x48#8] ∧ t.getReg .r0 = 0x1248#16 ∧ t.getReg .r7 = 0x3001#16) = true := by decide
theorem test_out_zero : answers (step ((start 0xF021#16).setReg .r0 0x4100#16)) (fun t =>
    t.outStream = [0x00#8]) = true := by decide
/-- T11. -/
theorem test_puts : answers (step ((((start 0xF022#16).setReg .r0 0x3005#16).setCell 0x3005#16 0x4100#16).setCell
    0x3006#16 0x0142#16)) (fun t => t.outStream = [0x00#8, 0x42#8] ∧ t.getReg .r0 = 0x3005#16) = true := by decide
/-- T13: the string runs over `KBSR`. -/
theorem test_puts_over_kbsr :
    answers (step ((((startKeys 0xF022#16 [0x7A#8]).setReg .r0 0xFDFF#16).setCell 0xFDFF#16 0x0041#16).setCell
      0xFE00#16 0x0043#16)) (fun t =>
        t.outStream = [0x41#8, 0x43#8] ∧ t.cell 0xFE00#16 = 0x8043#16 ∧ t.cell 0xFE02#16 = 0x007A#16 ∧ t.keys = []) =
      true := by decide
/-- T14. -/
theorem test_in : answers (step { startCC 0xF023#16 .neg with keys := [0x79#8] }) (fun t =>
    t.outStream = State.reset.params.inPrompt ++ [0x79#8] ∧ t.getReg .r0 = 0x0079#16 ∧ t.keys = [] ∧ t.cond = .neg) =
    true := by decide
/-- T15, T18. -/
theorem test_putsp : answers (step ((((start 0xF024#16).setReg .r0 0x3005#16).setCell 0x3005#16 0x6948#16).setCell
    0x3006#16 0x0021#16)) (fun t => t.outStream = [0x48#8, 0x69#8, 0x21#8]) = true := by decide
theorem test_putsp_zeroCell :
    answers (step { (((start 0xF024#16).setReg .r0 0x3005#16).setCell 0x3005#16 0x0041#16).setCell 0x3006#16 0x4342#16
      with params := { Config.Params.default with putspRule := .zeroCell } }) (fun t =>
        t.outStream = [0x41#8, 0x42#8, 0x43#8]) = true := by decide
/-- T20. -/
theorem test_halt : answers (step (start 0xF025#16)) (fun t =>
    t.run = false ∧ t.outStream = [0x48#8, 0x41#8, 0x4C#8, 0x54#8, 0x0A#8] ∧ t.fault = ⟨.none, 0#16⟩ ∧
      exitStatus t = some 0) = true := by decide
/-- T22, T25. -/
theorem test_trap_x00 : answers (step ((start 0xF000#16).setReg .r7 0x1111#16)) (fun t =>
    t.getReg .r7 = 0x3001#16 ∧ t.run = false ∧ t.fault = ⟨.invalidTrapVector, 0#16⟩ ∧ exitStatus t = some 1) = true := by
  decide
theorem test_trap_xFF : answers (step (start 0xF0FF#16)) (fun t =>
    t.fault = ⟨.invalidTrapVector, 0x00FF#16⟩ ∧ t.outStream = [] ∧ t.terminalRestores = 1) = true := by decide
/-- X2. -/
theorem test_rti : answers (step ((startCC 0x8FFF#16 .pos).setReg .r7 0x1111#16)) (fun t =>
    t.pc = 0x3001#16 ∧ t.run = false ∧ t.fault = ⟨.invalidOpcode, 0x8FFF#16⟩ ∧ t.getReg .r7 = 0x1111#16 ∧ t.cond = .pos) =
    true := by decide
/-- X4. -/
theorem test_res : answers (step (start 0xDABC#16)) (fun t =>
    t.pc = 0x3001#16 ∧ t.run = false ∧ t.fault = ⟨.invalidOpcode, 0xDABC#16⟩ ∧ exitStatus t = some 1) = true := by decide

/-! ## Images, boot and the fetched word (V-IMG, rules R221 to R226) -/

/-- The two-word image of Scenario A. -/
theorem test_image_file :
    imageOfFile [0x30#8, 0x00#8, 0x10#8, 0x25#8, 0xF0#8, 0x25#8] = some ⟨0x3000#16, [0x1025#16, 0xF025#16]⟩ := by decide
/-- A later image overwrites an earlier one, and the PC is 0x3000 whatever the origins. -/
theorem test_boot_overlap :
    answers (boot [] [⟨0x3000#16, [0x1025#16, 0xF025#16]⟩, ⟨0x3001#16, [0x1234#16]⟩]) (fun t =>
      t.cell 0x3000#16 = 0x1025#16 ∧ t.cell 0x3001#16 = 0x1234#16 ∧ t.pc = 0x3000#16 ∧ t.run = true) = true := by decide
/-- `withFetchWord` at reset runs its word: the first row and the last of the opcode table. -/
theorem test_withFetchWord_halt :
    answers (step (State.reset.withFetchWord 16 0xF025)) (fun t => t.run = false ∧ t.getReg .r7 = 0x3001#16) = true := by
  decide
theorem test_withFetchWord_puts :
    answers (step (State.reset.withFetchWord 16 0xF022)) (fun t => t.outStream = [] ∧ t.pc = 0x3001#16) = true := by decide
theorem test_decodeTableWord : decodeTableWord 16 0xC1C0 = some .ret ∧ decodeTableWord 16 0x1025 =
    some (.addImm .r0 .r0 0x05#5) := by decide

/-! ## A string with no end: a memory of which every cell is PUTS, so that the string that starts anywhere goes on for ever -/

/-- Every cell from `k`, `n` of them, holds 0xF022. -/
def putsCells (k n : Nat) : Memory := (List.range' k n).map (fun a => (a, 0xF022#16))

/-- What such a memory reads as. -/
theorem putsCells_read (k n : Nat) (a : Word) (h : k ≤ a.toNat) (h' : a.toNat < k + n) :
    (putsCells k n).read a = 0xF022#16 := by
  induction n generalizing k with
  | zero => omega
  | succ n ih =>
    simp only [putsCells, List.range'_succ, List.map_cons, Memory.read]
    split
    · rfl
    · exact ih (k + 1) (by omega) (by omega)

/-- The state: after reset, but for memory. -/
def endless : State := { State.reset with mem := putsCells 0 65536 }

/-- In a state with no key to come and no zero cell, a read leaves no key to come and no zero cell. -/
theorem endless_read (a : Word) (s : State) (h : s.keys = [] ∧ s.arrivals = [] ∧ ∀ b, s.cell b = 0xF022#16 ∨ s.cell b = 0x7022#16) :
    (readEffect a s).keys = [] ∧ (readEffect a s).arrivals = [] ∧
      ∀ b, (readEffect a s).cell b = 0xF022#16 ∨ (readEffect a s).cell b = 0x7022#16 := by
  obtain ⟨hk, ha, hc⟩ := h
  by_cases e : a = Config.kbsrAddr
  · subst e
    have hs : s.sampleKeyboard.keys = [] := by rw [sampleKeyboard_nil ha, hk]
    rw [readEffect_kbsr, pollKeyboard_nil hs]
    refine ⟨rfl, by simp [sampleKeyboard_nil ha, ha], fun b => ?_⟩
    by_cases hb : b = Config.kbsrAddr
    · subst hb
      rcases hc Config.kbsrAddr with h | h <;> simp [State.cell_eq] at h ⊢ <;> simp [h]
    · have := hc b
      simpa [State.cell_eq, hb] using this
  · rw [readEffect_ordinary e]
    exact ⟨hk, ha, hc⟩

/-- So no loop of PUTS from it has an end. -/
theorem endless_run {a : Word} {s u : State} (h : StringRun putsCell a s u) :
    ¬(s.keys = [] ∧ s.arrivals = [] ∧ ∀ b, s.cell b = 0xF022#16 ∨ s.cell b = 0x7022#16) := by
  induction h with
  | stop a s h =>
    intro hs
    rw [memRead_fst] at h
    rcases (endless_read a s hs).2.2 a with e | e <;> rw [e] at h <;> exact absurd h (by decide)
  | more a s t _ _ ih =>
    intro hs
    exact ih (endless_read a s hs)

/-- A PUTS that faults, and the step that runs it: the witness of the fault clauses. -/
theorem witness_fault : exec .puts endless = .fault .unterminatedString ∧ step endless = .fault .unterminatedString := by
  have hread : ∀ b : Word, endless.cell b = 0xF022#16 := fun b =>
    putsCells_read 0 65536 b (Nat.zero_le _) (by have := b.isLt; omega)
  have key : ∀ s : State, s.keys = [] → s.arrivals = [] → (∀ b, s.cell b = 0xF022#16) →
      exec .puts s = .fault .unterminatedString := by
    intro s hk ha hc
    rcases printString_cases putsCell (saveReturn s) with ⟨t, ht, -⟩ | h
    · exact absurd ⟨hk, ha, fun b => .inl (hc b)⟩ (endless_run ht)
    · exact h
  refine ⟨key _ rfl rfl hread, ?_⟩
  rw [step_exec rfl rfl, fetch_fst, fetch_snd, readEffect_ordinary (by decide), hread]
  exact key _ rfl rfl hread

/-! ## Witnesses: for each statement with hypotheses, a state and operands that meet them, clause by clause, at the edges of
the ranges -/

theorem witness_EncodeThenDecode :
    (Instr.trap 0x26#8).wellFormed = true ∧ (Instr.lea .r7 0x100#9).wellFormed = true ∧
      (-16 : Int) ≤ -16 ∧ (sext (BitVec.ofInt 5 (-16))).toInt = -16 ∧ (sext (BitVec.ofInt 5 15)).toInt = 15 ∧
      (sext (BitVec.ofInt 6 (-32))).toInt = -32 ∧ (sext (BitVec.ofInt 6 31)).toInt = 31 ∧
      (sext (BitVec.ofInt 9 (-256))).toInt = -256 ∧ (sext (BitVec.ofInt 9 255)).toInt = 255 ∧
      (sext (BitVec.ofInt 11 (-1024))).toInt = -1024 ∧ (sext (BitVec.ofInt 11 1023)).toInt = 1023 := by decide

theorem witness_TableRows :
    0xC1C0#16 &&& rowMask .ret = rowMatch .ret ∧ 0xC1C0#16 &&& rowMask (.jmp .r0) = rowMatch (.jmp .r0) ∧
      0xF025#16 &&& rowMask .halt = rowMatch .halt ∧ 0xF025#16 &&& rowMask (.trap 0#8) = rowMatch (.trap 0#8) ∧
      0x1025#16 &&& rowMask (.addImm .r0 .r0 0#5) = rowMatch (.addImm .r0 .r0 0#5) := by decide

/-- Pairs of words that differ only in ignored bits: ALU1 and ALU10, ALU13 and ALU15, ALU16 and ALU19, J2 and J3, J11 and
J12, T20 and T21. -/
theorem witness_IgnoredBits :
    (Opcode.ofWord 0x1001#16 = .add ∧ (0x1001#16).getLsbD 5 = false ∧ 0x1001#16 &&& 0xFFE7#16 = 0x1019#16 &&& 0xFFE7#16) ∧
    (Opcode.ofWord 0x5642#16 = .and ∧ (0x5642#16).getLsbD 5 = false ∧ 0x5642#16 &&& 0xFFE7#16 = 0x565A#16 &&& 0xFFE7#16) ∧
    (Opcode.ofWord 0x92BF#16 = .not ∧ 0x92BF#16 &&& 0xFFC0#16 = 0x9280#16 &&& 0xFFC0#16) ∧
    (Opcode.ofWord 0xC1C0#16 = .jmp ∧ 0xC1C0#16 &&& 0xF1C0#16 = 0xCFFF#16 &&& 0xF1C0#16) ∧
    (Opcode.ofWord 0x41C0#16 = .jsr ∧ (0x41C0#16).getLsbD 11 = false ∧ 0x41C0#16 &&& 0xF9C0#16 = 0x47FF#16 &&& 0xF9C0#16) ∧
    (Opcode.ofWord 0xF025#16 = .trap ∧ 0xF025#16 &&& 0xF0FF#16 = 0xFF25#16 &&& 0xF0FF#16) := by decide

/-- The four widths of a sign-extended field. -/
theorem witness_SignExtension : ∀ n ∈ [5, 6, 9, 11], n = 5 ∨ n = 6 ∨ n = 9 ∨ n = 11 := by decide

/-- RUNNING and not waiting, at an ordinary PC and at `KBSR`. -/
theorem witness_StepRuns :
    (State.reset.run = true ∧ State.reset.wait = none ∧ State.reset.pc ≠ Config.kbsrAddr ∧
      decode (State.reset.cell State.reset.pc) = .br false false false 0#9) ∧
    ((State.reset.setPc 0xFE00#16).run = true ∧ (State.reset.setPc 0xFE00#16).wait = none ∧
      (State.reset.setPc 0xFE00#16).pc = Config.kbsrAddr) := by decide

/-- The PCs beside `KBSR`, and `KBSR` with a key and without. -/
theorem witness_Fetch :
    (State.reset.setPc 0xFDFF#16).pc ≠ Config.kbsrAddr ∧ (State.reset.setPc 0xFE01#16).pc ≠ Config.kbsrAddr ∧
      (State.reset.setPc 0xFE00#16).pc = Config.kbsrAddr ∧
      ({ State.reset.setPc 0xFE00#16 with keys := [0x41#8] }).sampleKeyboard.keys = [0x41#8] ∧
      (State.reset.setPc 0xFE00#16).sampleKeyboard.keys = [] := by decide

theorem witness_Halted : (State.powerOn []).run = false := by decide

/-- `exec` answers a next state for a flag-defining instruction, for another, and for a fatal one (FlagUpdate, and every
statement whose hypothesis is that an instruction completes). -/
theorem witness_exec_next :
    (∃ t, exec (.addImm .r0 .r0 5#5) running = .next t) ∧ (∃ t, exec (.st .r0 5#9) running = .next t) ∧
      (∃ t, exec (.trap 0x26#8) running = .next t) ∧ (∃ t, exec .puts running = .next t) :=
  ⟨⟨_, rfl⟩, ⟨_, rfl⟩, ⟨_, rfl⟩, by
    rw [exec_puts]
    unfold printString
    rw [show stringFuel (saveReturn running) = 196607 + 1 from rfl, stringLoop_last]
    · exact ⟨_, rfl⟩
    · decide⟩

theorem witness_CondRead : ∀ n z p off, (Instr.lea .r0 5#9) ≠ .br n z p off := by simp

/-- Two memories in canonical form that read alike. -/
theorem witness_Canonical :
    Memory.wf [(1, 5#16), (0xFFFF, 6#16)] ∧
      ∀ a : Word, Memory.read [(1, 5#16), (0xFFFF, 6#16)] a = Memory.read [(1, 5#16), (0xFFFF, 6#16)] a :=
  ⟨by decide, fun _ => rfl⟩

/-- A key in the queue, a key only among the arrivals, and none (KbsrReadWithKey, KbsrReadWithoutKey, GetcRoutine,
InRoutine, WaitEndsOnlyWithKey). -/
theorem witness_keys :
    ({ running with keys := [0x61#8, 0x62#8] }).sampleKeyboard.keys = 0x61#8 :: [0x62#8] ∧
      ({ running with arrivals := [[0x61#8], []] }).sampleKeyboard.keys = 0x61#8 :: [] ∧
      ({ running with arrivals := [[], [0x61#8]] }).sampleKeyboard.keys = [] ∧ running.sampleKeyboard.keys = [] := by decide

theorem witness_OrdinaryRead : (0xFDFF#16) ≠ 0xFE00#16 ∧ (0xFE01#16) ≠ 0xFE00#16 ∧ (0xFE02#16) ≠ 0xFE00#16 := by decide

/-- A store over the next cell by each form: S2 (ST R1, #0), STI R2, #1 with its pointer at 0x3002, STR R5, R6, #1; and
ST R1, #0 at 0xFDFF, where the next cell is `KBSR`. -/
theorem witness_StoreIsSeen :
    (let s := (start 0x3200#16).setReg .r1 0xF025#16
     s.run = true ∧ s.wait = none ∧ decode (fetch s).1 = .st .r1 0#9 ∧ pcRelative 0#9 (fetch s).2 = (fetch s).2.pc ∧
      (fetch s).2.pc ≠ Config.kbsrAddr) ∧
    (let s := ((start 0xB401#16).setReg .r2 0xF025#16).setCell 0x3002#16 0x3001#16
     s.run = true ∧ s.wait = none ∧ decode (fetch s).1 = .sti .r2 1#9 ∧ (indirect 1#9 (fetch s).2).1 = (fetch s).2.pc) ∧
    (let s := ((start 0x7B81#16).setReg .r5 0xF025#16).setReg .r6 0x3000#16
     s.run = true ∧ s.wait = none ∧ decode (fetch s).1 = .str .r5 .r6 1#6 ∧
      baseOffset .r6 1#6 (fetch s).2 = (fetch s).2.pc) ∧
    (let s := (startAt 0xFDFF#16 0x3200#16).setReg .r1 0xF025#16
     s.run = true ∧ s.wait = none ∧ decode (fetch s).1 = .st .r1 0#9 ∧ pcRelative 0#9 (fetch s).2 = (fetch s).2.pc ∧
      (fetch s).2.pc = Config.kbsrAddr) := by decide

/-- A word of each form of each family: the premises on opcode and mode bits (R81, R88). -/
theorem witness_words :
    ((0x1401#16).extractLsb' 12 4 = 0b0001#4 ∧ (0x1401#16).getLsbD 5 = false) ∧
    ((0x1025#16).extractLsb' 12 4 = 0b0001#4 ∧ (0x1025#16).getLsbD 5 = true) ∧
    ((0x5642#16).extractLsb' 12 4 = 0b0101#4 ∧ (0x5642#16).getLsbD 5 = false) ∧
    ((0x507E#16).extractLsb' 12 4 = 0b0101#4 ∧ (0x507E#16).getLsbD 5 = true) ∧
    (0x92BF#16).extractLsb' 12 4 = 0b1001#4 ∧ (0x0403#16).extractLsb' 12 4 = 0b0000#4 ∧
    ((0xC0C0#16).extractLsb' 12 4 = 0b1100#4 ∧ (0xC0C0#16).extractLsb' 6 3 ≠ 0b111#3) ∧
    ((0xCFFF#16).extractLsb' 12 4 = 0b1100#4 ∧ (0xCFFF#16).extractLsb' 6 3 = 0b111#3) ∧
    ((0x4FF6#16).extractLsb' 12 4 = 0b0100#4 ∧ (0x4FF6#16).getLsbD 11 = true) ∧
    ((0x47FF#16).extractLsb' 12 4 = 0b0100#4 ∧ (0x47FF#16).getLsbD 11 = false) ∧
    (0x2202#16).extractLsb' 12 4 = 0b0010#4 ∧ (0xA002#16).extractLsb' 12 4 = 0b1010#4 ∧
    (0x6705#16).extractLsb' 12 4 = 0b0110#4 ∧ (0xE5FF#16).extractLsb' 12 4 = 0b1110#4 ∧
    (0x3203#16).extractLsb' 12 4 = 0b0011#4 ∧ (0xB401#16).extractLsb' 12 4 = 0b1011#4 ∧
    (0x73A0#16).extractLsb' 12 4 = 0b0111#4 ∧ (0x8FFF#16).extractLsb' 12 4 = 0b1000#4 ∧
    (0xDABC#16).extractLsb' 12 4 = 0b1101#4 ∧ 0xFA21#16 &&& 0xF0FF#16 = 0xF021#16 ∧ Opcode.ofWord 0xF026#16 = .trap := by
  decide

theorem witness_NopWords : (0x0000#16).toNat < 0x200 ∧ (0x01FF#16).toNat < 0x200 := by decide

/-- Each way a BR is taken, and one it is not. -/
theorem witness_Branch :
    answers (exec (.br true false false 1#9) { running with cond := .neg }) (fun t => t.pc = 0x3002#16) = true ∧
    answers (exec (.br false true false 1#9) { running with cond := .zero }) (fun t => t.pc = 0x3002#16) = true ∧
    answers (exec (.br false false true 1#9) { running with cond := .pos }) (fun t => t.pc = 0x3002#16) = true ∧
    answers (exec (.br false false true 1#9) { running with cond := .neg }) (fun t => t.pc = 0x3001#16) = true := by decide

/-- An instruction of each kind that does not transfer control, and none that does is among them (PcChangedOnlyByTransfers). -/
theorem witness_PcChanged :
    transfersControl (.lea .r0 0#9) = false ∧ transfersControl (.trap 0x26#8) = false ∧
      transfersControl (.rti 0#12) = false ∧ transfersControl .getc = false ∧ transfersControl .ret = true := by decide

/-- Effective addresses beside `KBSR` and at it (the loads and STI): from PC 0xFE00 offset -1 and 1, from 0xFDFF offset 1. -/
theorem witness_addresses :
    (State.reset.setPc 0xFE00#16).pc + sext 0x1FF#9 ≠ Config.kbsrAddr ∧
      (State.reset.setPc 0xFE00#16).pc + sext 0x001#9 ≠ Config.kbsrAddr ∧
      (State.reset.setPc 0xFDFF#16).pc + sext 0x001#9 = Config.kbsrAddr ∧
      ((State.reset.setCell 0x3002#16 0x4000#16).setPc 0x3001#16).cell (0x3001#16 + sext 0x001#9) ≠ Config.kbsrAddr ∧
      (running.setReg .r2 0xFE01#16).getReg .r2 + sext 0x3F#6 = Config.kbsrAddr ∧
      (running.setReg .r2 0xFE01#16).getReg .r2 + sext 0x3E#6 ≠ Config.kbsrAddr := by decide

/-- Vectors on each side of the recognised range. -/
theorem witness_UnknownTrapVector :
    ((0x1F#8).toNat < 0x20 ∨ 0x25 < (0x1F#8).toNat) ∧ ((0x26#8).toNat < 0x20 ∨ 0x25 < (0x26#8).toNat) ∧
      ((0x00#8).toNat < 0x20 ∨ 0x25 < (0x00#8).toNat) ∧ ((0xFF#8).toNat < 0x20 ∨ 0x25 < (0xFF#8).toNat) := by decide

/-- T9, T10: a string of two cells, and the empty one, which also ends at the cell before `KBSR`. -/
theorem witness_Puts :
    (let s := ((running.setReg .r0 0x3005#16).setCell 0x3005#16 0x0048#16).setCell 0x3006#16 0x0069#16
     (∀ i ≤ 2, s.getReg .r0 + BitVec.ofNat 16 i ≠ Config.kbsrAddr) ∧
      (∀ i < 2, s.cell (s.getReg .r0 + BitVec.ofNat 16 i) ≠ 0#16) ∧ s.cell (s.getReg .r0 + BitVec.ofNat 16 2) = 0#16) ∧
    (let s := running.setReg .r0 0xFDFF#16
     (∀ i ≤ 0, s.getReg .r0 + BitVec.ofNat 16 i ≠ Config.kbsrAddr) ∧
      (∀ i < 0, s.cell (s.getReg .r0 + BitVec.ofNat 16 i) ≠ 0#16) ∧ s.cell (s.getReg .r0 + BitVec.ofNat 16 0) = 0#16) := by
  decide

/-- T15 ends at a zero high byte, T16 at a zero cell (`zero_byte`); T19 under `zero_cell`. -/
theorem witness_Putsp :
    (let s := ((running.setReg .r0 0x3005#16).setCell 0x3005#16 0x6948#16).setCell 0x3006#16 0x0021#16
     (∀ i ≤ 1, s.getReg .r0 + BitVec.ofNat 16 i ≠ Config.kbsrAddr) ∧ s.params.putspRule = .zeroByte ∧
      (∀ i < 1, (s.cell (s.getReg .r0 + BitVec.ofNat 16 i)).extractLsb' 0 8 ≠ 0#8 ∧
        (s.cell (s.getReg .r0 + BitVec.ofNat 16 i)).extractLsb' 8 8 ≠ 0#8) ∧
      (s.cell (s.getReg .r0 + BitVec.ofNat 16 1)).extractLsb' 0 8 ≠ 0#8 ∧
      (s.cell (s.getReg .r0 + BitVec.ofNat 16 1)).extractLsb' 8 8 = 0#8) ∧
    (let s := (running.setReg .r0 0x3005#16).setCell 0x3005#16 0x6948#16
     (∀ i ≤ 1, s.getReg .r0 + BitVec.ofNat 16 i ≠ Config.kbsrAddr) ∧
      (s.cell (s.getReg .r0 + BitVec.ofNat 16 1)).extractLsb' 0 8 = 0#8) ∧
    (let s := { ((running.setReg .r0 0x3005#16).setCell 0x3005#16 0x4100#16).setCell 0x3006#16 0x0042#16 with
        params := { Config.Params.default with putspRule := .zeroCell } }
     (∀ i ≤ 2, s.getReg .r0 + BitVec.ofNat 16 i ≠ Config.kbsrAddr) ∧ s.params.putspRule = .zeroCell ∧
      (∀ i < 2, s.cell (s.getReg .r0 + BitVec.ofNat 16 i) ≠ 0#16) ∧ s.cell (s.getReg .r0 + BitVec.ofNat 16 2) = 0#16) := by
  decide

/-- The well-formed packed strings of U5: one that ends with a zero cell, one that ends with a zero high byte and a zero
cell after it. -/
theorem witness_PutspReadings :
    (let s := (running.setReg .r0 0x3005#16).setCell 0x3005#16 0x6948#16
     (∀ i ≤ 1, s.getReg .r0 + BitVec.ofNat 16 i ≠ Config.kbsrAddr) ∧
      (∀ i < 1, (s.cell (s.getReg .r0 + BitVec.ofNat 16 i)).extractLsb' 0 8 ≠ 0#8 ∧
        (s.cell (s.getReg .r0 + BitVec.ofNat 16 i)).extractLsb' 8 8 ≠ 0#8) ∧
      s.cell (s.getReg .r0 + BitVec.ofNat 16 1) = 0#16) ∧
    (let s := ((running.setReg .r0 0x3005#16).setCell 0x3005#16 0x6948#16).setCell 0x3006#16 0x0021#16
     (∀ i ≤ 1, s.getReg .r0 + BitVec.ofNat 16 i ≠ Config.kbsrAddr) ∧
      (s.cell (s.getReg .r0 + BitVec.ofNat 16 1)).extractLsb' 0 8 ≠ 0#8 ∧
      (s.cell (s.getReg .r0 + BitVec.ofNat 16 1)).extractLsb' 8 8 = 0#8 ∧
      s.getReg .r0 + BitVec.ofNat 16 2 ≠ Config.kbsrAddr ∧ s.cell (s.getReg .r0 + BitVec.ofNat 16 2) = 0#16) := by decide

/-- RecognisedTrapVectors: an empty string not at `KBSR`. -/
theorem witness_RecognisedTrap :
    running.getReg .r0 ≠ Config.kbsrAddr ∧ running.cell (running.getReg .r0) = 0#16 := by decide

theorem witness_Halt : running.fault.cause = .none := by decide

/-- A wait of each routine, with a key, without, and with none to come (WaitEndsOnlyWithKey). -/
theorem witness_Wait :
    (let s := { running with wait := some .getc, arrivals := [[], [0x61#8]] }
     s.run = true ∧ s.wait = some .getc ∧ s.sampleKeyboard.keys = []) ∧
    (let s := { running with wait := some .inKey, arrivals := [[0x61#8]] }
     s.run = true ∧ s.wait = some .inKey ∧ s.sampleKeyboard.keys = 0x61#8 :: []) ∧
    (let s := { running with wait := some .getc }
     s.run = true ∧ s.wait = some .getc ∧ s.sampleKeyboard.keys = [] ∧ s.arrivals = []) := by decide

/-- The invariant holds at reset, and the step from there answers a next state. -/
theorem witness_Invariant : StateInv State.reset ∧ (∃ t, step State.reset = .next t) :=
  ⟨⟨⟨List.Pairwise.nil, by simp [State.reset]⟩, rfl, fun _ => rfl, by decide, by decide, by decide, by decide⟩, ⟨_, rfl⟩⟩

theorem witness_AtStart :
    Memory.wf [(0x4000, 0xBEEF#16)] ∧ ∃ s, boot [(0x4000, 0xBEEF#16)] [⟨0xFFFF#16, [0x0001#16]⟩] = .next s :=
  ⟨by decide, _, rfl⟩

/-- A register an instruction neither writes nor reads, and registers that are written but not read: DR of ADD and LD, R7 of
JSR and of a routine, R0 of GETC (RegisterWriteTable, RegisterReadTable). -/
theorem witness_Registers :
    Reg.r3 ∉ destRegs (.addReg .r0 .r1 .r2) ∧ Reg.r3 ∉ sourceRegs (.addReg .r0 .r1 .r2) ∧
      Reg.r1 ∉ destRegs .getc ∧ Reg.r0 ∉ sourceRegs .getc ∧ Reg.r0 ∉ destRegs .puts ∧
      Reg.r7 ∉ destRegs (.jmp .r1) ∧ Reg.r7 ∉ sourceRegs (.jmp .r1) ∧ Reg.r0 ∉ sourceRegs (.addReg .r0 .r1 .r2) ∧
      Reg.r0 ∉ sourceRegs (.ld .r0 0#9) ∧ Reg.r7 ∉ sourceRegs (.jsr 0#11) ∧ Reg.r7 ∉ sourceRegs .puts := by decide

/-- An instruction that reads memory and writes none, and one that does neither, and the cells beside the device cells
(MemoryWrittenOnlyByStores). -/
theorem witness_MemoryWritten :
    writesMemory .puts = false ∧ readsMemory .puts = true ∧ writesMemory .out = false ∧ readsMemory .out = false ∧
      (0xFE01#16) ≠ Config.kbsrAddr ∧ (0xFE01#16) ≠ Config.kbdrAddr := by decide

theorem witness_Console : writesConsole .getc = false ∧ writesConsole (.trap 0x26#8) = false := by decide

/-- KeysLeaveInOrder: an instruction that reads no memory and takes no key. -/
theorem witness_Keys :
    readsMemory .out = false ∧ Instr.out ≠ .getc ∧ Instr.out ≠ .inKey ∧ Instr.out ≠ .trap 0x20#8 ∧
      Instr.out ≠ .trap 0x23#8 := by decide

/-- Each way a run ends, and one it goes on (RunEndsOnlyByHaltOrFatal, ExitStatusRule). -/
theorem witness_RunEnds :
    (∃ t, step (State.powerOn []) = .next t) ∧
      answers (step (start 0x1025#16)) (fun t => t.run = true) = true ∧
      answers (step (start 0xF025#16)) (fun t => t.run = false ∧ t.fault.cause = .none) = true ∧
      answers (step (start 0x8000#16)) (fun t => t.run = false ∧ t.fault.cause = .invalidOpcode) = true ∧
      answers (step (start 0xF026#16)) (fun t => t.run = false ∧ t.fault.cause = .invalidTrapVector) = true :=
  ⟨⟨_, rfl⟩, by decide, by decide, by decide, by decide⟩

/-- States of the invariant RUNNING, at a good end and faulted (ExitStatusRule). -/
theorem witness_ExitStatus :
    (StateInv State.reset ∧ State.reset.run = true) ∧ (StateInv (State.powerOn []) ∧ GoodEnd (State.powerOn [])) ∧
      (StateInv { State.powerOn [] with fault := ⟨.invalidOpcode, 0xD000#16⟩ } ∧
        Faulted { State.powerOn [] with fault := ⟨.invalidOpcode, 0xD000#16⟩ }) :=
  ⟨⟨witness_Invariant.1, rfl⟩,
    ⟨⟨⟨List.Pairwise.nil, by simp [State.powerOn, State.reset]⟩, rfl, fun _ => rfl, by decide, by decide, by decide,
      by decide⟩, rfl, rfl⟩,
    ⟨⟨⟨List.Pairwise.nil, by simp [State.powerOn, State.reset]⟩, .inr (by decide), by decide, by decide, by decide,
      by decide, by decide⟩, rfl, by decide⟩⟩

/-- The largest image of R225, one word too many, an address on each side of a loaded image. -/
theorem witness_Images :
    (let im : Image := ⟨0xFFFF#16, [0x0001#16]⟩; im.origin.toNat + im.words.length ≤ 65536) ∧
      (let im : Image := ⟨0xFFFF#16, [0x0001#16, 0x0002#16]⟩; 65536 < im.origin.toNat + im.words.length) ∧
      ((0x2FFF#16).toNat < (0x3000#16).toNat ∨ (0x3000#16).toNat + 2 ≤ (0x2FFF#16).toNat) ∧
      ((0x3002#16).toNat < (0x3000#16).toNat ∨ (0x3000#16).toNat + 2 ≤ (0x3002#16).toNat) := by decide

/-- A truncated file of each kind. -/
theorem witness_Files :
    (([] : List Byte) = [] ∨ ([] : List Byte).length % 2 = 1) ∧
      ([0x30#8] = ([] : List Byte) ∨ [0x30#8].length % 2 = 1) := by decide

end Sys2Proof.Tests
end

section
/-! PROOFS. The open parameters (rule R7): no elementary update writes them, so no instruction and no step does. -/

namespace Sys2Proof.Machine

open Sys2Proof

@[simp] theorem awaitKey_params (w : KeyWait) (s : State) : (awaitKey w s).params = s.params :=
  awaitKey_keeps (P := fun u => u.params = s.params) w rfl
    (hkey := fun _ _ _ _ hu => hu) (hreg := fun _ _ hu => hu) (hwrite := fun _ _ _ hu => hu) (hflush := fun _ _ hu => hu)

/-- Only the read through the dispatcher and the wait for a key need their laws here; every other elementary update of
`exec_keeps` leaves the field by definition. -/
theorem exec_params {i : Instr} {s t : State} (h : exec i s = .next t) : t.params = s.params :=
  exec_keeps (P := fun u => u.params = s.params) h rfl
    (hreg := fun _ _ _ _ hu => hu)
    (hcc := fun _ _ _ hu => hu)
    (hpc := fun _ _ _ hu => hu)
    (hread := fun _ a u hu => (readEffect_params a u).trans hu)
    (hstore := fun _ _ _ _ hu => hu)
    (hawait := fun _ w u _ hu => (awaitKey_params w u).trans hu)
    (hwrite := fun _ _ _ hu => hu)
    (hflush := fun _ _ hu => hu)
    (hend := fun _ _ hu => hu)
    (hfault := fun _ _ _ _ _ _ hu => hu)

theorem fetch_params (s : State) : (fetch s).2.params = s.params := by simp

/-- Settles O55, by the three cases of a step: HALTED, inside a wait, one instruction after its fetch. -/
theorem parametersNeverWritten : Obligations.ParametersNeverWritten := by
  intro s t h
  rcases step_cases s with ⟨-, hstep⟩ | ⟨-, w, -, hstep⟩ | ⟨-, -, hstep⟩
  all_goals rw [hstep] at h
  · cases h; rfl
  · cases h; exact awaitKey_params w s
  · exact (exec_params h).trans (fetch_params s)

end Sys2Proof.Machine
end

section
/-! PROOFS. The words of the reserved opcodes: format `NONE` is an opcode and the twelve bits below it (rules R81, R191). -/

namespace Sys2Proof

theorem Opcode.ofWord_formatNONE (op : Opcode) (low : BitVec 12) : Opcode.ofWord (formatNONE op low) = op :=
  Opcode.ofWord_eq fun i _ => by simp [formatNONE_bit]

end Sys2Proof
end

section
/-! PROOFS. What one instruction does to each part of the state, said once per part: the laws of the wait for a key, then
the instructions that read a key and those that end the run, then the frame of an instruction, each from `exec_keeps_but`. -/

namespace Sys2Proof.Machine

open Sys2Proof

/-! ## The wait for a key (R118, R162, R165) -/

/-- Everything a look at the keyboard can do to the state: PC, COND, RUN, FAULT, memory, terminal and parameters stay. -/
theorem awaitKey_eq (w : KeyWait) (s : State) :
    awaitKey w s =
      { s with
        regs := (awaitKey w s).regs
        wait := (awaitKey w s).wait
        keys := (awaitKey w s).keys
        arrivals := (awaitKey w s).arrivals
        outStream := (awaitKey w s).outStream
        flushed := (awaitKey w s).flushed } := by
  rcases awaitKey_cases w s with ⟨-, h⟩ | ⟨k, ks, -, h⟩
  · rw [h, sampleKeyboard_eq s]
  · rw [h, sampleKeyboard_eq s]
    cases w <;> rfl

@[simp] theorem awaitKey_pc (w : KeyWait) (s : State) : (awaitKey w s).pc = s.pc := by rw [awaitKey_eq]
@[simp] theorem awaitKey_cond (w : KeyWait) (s : State) : (awaitKey w s).cond = s.cond := by rw [awaitKey_eq]
@[simp] theorem awaitKey_run (w : KeyWait) (s : State) : (awaitKey w s).run = s.run := by rw [awaitKey_eq]
@[simp] theorem awaitKey_fault (w : KeyWait) (s : State) : (awaitKey w s).fault = s.fault := by rw [awaitKey_eq]
@[simp] theorem awaitKey_mem (w : KeyWait) (s : State) : (awaitKey w s).mem = s.mem := by rw [awaitKey_eq]
@[simp] theorem awaitKey_terminalRestores (w : KeyWait) (s : State) :
    (awaitKey w s).terminalRestores = s.terminalRestores := by rw [awaitKey_eq]

/-- R0 is the only register a look at the keyboard writes (R22). -/
theorem awaitKey_getReg (w : KeyWait) (s : State) {r : Reg} (hr : r ≠ .r0) : (awaitKey w s).getReg r = s.getReg r :=
  awaitKey_keeps (P := fun u => u.getReg r = s.getReg r) w rfl
    (hkey := fun _ _ _ _ hu => hu) (hreg := fun _ _ hu => by simp [hr, hu]) (hwrite := fun _ _ _ hu => hu)
    (hflush := fun _ _ hu => hu)

theorem awaitKey_flushed_le (w : KeyWait) {s : State} (hs : s.flushed ≤ s.outStream.length) :
    (awaitKey w s).flushed ≤ (awaitKey w s).outStream.length :=
  awaitKey_keeps (P := fun u => u.flushed ≤ u.outStream.length) w hs
    (hkey := fun _ _ _ _ hu => hu) (hreg := fun _ _ hu => hu)
    (hwrite := fun _ bs u hu => by simpa using Nat.le_add_right_of_le hu) (hflush := fun _ u _ => le_refl _)

/-! ## The instructions that read a key, and those that end the run -/

theorem readsKey_iff {i : Instr} :
    readsKey i = true ↔ i = .getc ∨ i = .inKey ∨ i = .trap 0x20#8 ∨ i = .trap 0x23#8 := by
  cases i <;> simp [readsKey]

theorem endsRun_iff {i : Instr} :
    endsRun i = true ↔ i = .halt ∨ i = .trap 0x25#8 ∨ (∃ low, i = .rti low ∨ i = .res low) ∨
      ∃ vec, i = .trap vec ∧ recognisedVector vec = false := by
  cases i <;> simp [endsRun]

theorem endsRun_of_readsKey {i : Instr} (h : readsKey i = true) : endsRun i = false := by
  rcases readsKey_iff.mp h with rfl | rfl | rfl | rfl <;> rfl

theorem transfersControl_of_readsKey {i : Instr} (h : readsKey i = true) : transfersControl i = false := by
  rcases readsKey_iff.mp h with rfl | rfl | rfl | rfl <;> rfl

theorem r0_mem_destRegs_of_readsKey {i : Instr} (h : readsKey i = true) : .r0 ∈ destRegs i := by
  rcases readsKey_iff.mp h with rfl | rfl | rfl | rfl <;> decide

/-- An instruction that reads a key has saved the incremented PC in R7 (R160). -/
theorem exec_readsKey_r7 {i : Instr} {s t : State} (hk : readsKey i = true) (h : exec i s = .next t) :
    t.getReg .r7 = s.pc := by
  have linked : ∀ w u, u.getReg .r7 = s.pc → (awaitKey w u).getReg .r7 = s.pc := fun w u hu =>
    (awaitKey_getReg w u (by decide)).trans hu
  rcases readsKey_iff.mp hk with rfl | rfl | rfl | rfl <;> cases h <;> exact linked _ _ (by simp)

/-- TRAP with an unrecognised vector (R161). -/
theorem exec_trap_unrecognised {vec : BitVec 8} (hv : recognisedVector vec = false) (s : State) :
    exec (.trap vec) s = .next (raiseInvalidTrapVector vec (saveReturn s)) := by
  rcases execTrap_cases vec s with ⟨rfl, -⟩ | ⟨rfl, -⟩ | ⟨rfl, -⟩ | ⟨rfl, -⟩ | ⟨rfl, -⟩ | ⟨rfl, -⟩ | ⟨-, e⟩
  case inr.inr.inr.inr.inr.inr => exact e
  all_goals exact absurd hv (by decide)

/-- How a run ends: RUN is cleared and the terminal restored; HALT keeps the fault record, a reserved opcode records its
word and an unrecognised vector is recorded (R167, R191 to R193). -/
theorem exec_endsRun {i : Instr} {s t : State} (he : endsRun i = true) (h : exec i s = .next t) :
    t.run = false ∧ t.terminalRestores = s.terminalRestores + 1 ∧
      (((i = .halt ∨ i = .trap 0x25#8) ∧ t.fault = s.fault) ∨
        (∃ low, (i = .rti low ∨ i = .res low) ∧ t.fault = ⟨.invalidOpcode, encode i⟩) ∨
        ∃ vec, i = .trap vec ∧ recognisedVector vec = false ∧ t.fault = ⟨.invalidTrapVector, zext vec⟩) := by
  rcases endsRun_iff.mp he with rfl | rfl | ⟨low, rfl | rfl⟩ | ⟨vec, rfl, hv⟩
  · cases h; exact ⟨rfl, rfl, .inl ⟨.inl rfl, rfl⟩⟩
  · cases h; exact ⟨rfl, rfl, .inl ⟨.inr rfl, rfl⟩⟩
  · cases h; exact ⟨rfl, rfl, .inr (.inl ⟨low, .inl rfl, rfl⟩)⟩
  · cases h; exact ⟨rfl, rfl, .inr (.inl ⟨low, .inr rfl, rfl⟩)⟩
  · rw [exec_trap_unrecognised hv] at h
    cases h
    exact ⟨rfl, rfl, .inr (.inr ⟨vec, rfl, hv, rfl⟩)⟩

/-! ## The frame of an instruction -/

section Frame

variable {i : Instr} {s t : State}

/-- `exec_keeps` where an update need not be named: one that is not leaves what `P` speaks of by definition. -/
theorem exec_keeps_but {P : State → Prop} (h : exec i s = .next t) (hs : P s)
    (hreg : ∀ r ∈ destRegs i, ∀ v u, P u → P (u.setReg r v) := by exact fun _ _ _ _ hu => hu)
    (hcc : (flagDest i).isSome = true → ∀ v u, P u → P (setcc v u) := by exact fun _ _ _ hu => hu)
    (hpc : transfersControl i = true → ∀ v u, P u → P (u.setPc v) := by exact fun _ _ _ hu => hu)
    (hread : readsMemory i = true → ∀ a u, P u → P (readEffect a u) := by exact fun _ _ _ hu => by simpa using hu)
    (hstore : writesMemory i = true → ∀ a v u, P u → P (memWrite a v u) := by exact fun _ _ _ _ hu => hu)
    (hawait : readsKey i = true → ∀ w u, P u → P (awaitKey w u) := by exact fun _ _ _ hu => by simpa using hu)
    (hwrite : writesConsole i = true → ∀ bs u, P u → P (u.consoleWriteAll bs) := by exact fun _ _ _ hu => hu)
    (hflush : writesConsole i = true → ∀ u, P u → P u.consoleFlush := by exact fun _ _ hu => hu)
    (hend : endsRun i = true → ∀ u, P u → P u.restoreTerminal.stop := by exact fun _ _ hu => hu)
    (hfault : endsRun i = true → ∀ c v u, P u → P (u.setFault c v) := by exact fun _ _ _ _ hu => hu) : P t :=
  exec_keeps h hs hreg hcc hpc hread hstore (fun hk w u _ hu => hawait hk w u hu) hwrite hflush hend
    (fun he _ _ => hfault he)

/-- Memory keeps its canonical form. -/
theorem exec_wf (h : exec i s = .next t) (hs : s.mem.wf) : t.mem.wf :=
  exec_keeps_but (P := fun u => u.mem.wf) h hs
    (hread := fun _ a _ hu => readEffect_wf a hu) (hstore := fun _ a v _ hu => memWrite_wf hu a v)

/-- No more becomes visible than is written. -/
theorem exec_flushed_le (h : exec i s = .next t) (hs : s.flushed ≤ s.outStream.length) :
    t.flushed ≤ t.outStream.length :=
  exec_keeps_but (P := fun u => u.flushed ≤ u.outStream.length) h hs
    (hawait := fun _ w u hu => awaitKey_flushed_le w hu)
    (hwrite := fun _ bs u hu => by simpa using Nat.le_add_right_of_le hu) (hflush := fun _ _ _ => le_refl _)

/-- Only an instruction that reads a key changes the wait (R118). -/
theorem exec_wait (hk : readsKey i = false) (h : exec i s = .next t) : t.wait = s.wait :=
  exec_keeps_but (P := fun u => u.wait = s.wait) h rfl (hawait := fun hk' => absurd hk' (by simp [hk]))

/-- An instruction that does not end the run leaves RUN, the fault record and the terminal (R28, R29). -/
theorem exec_engine (he : endsRun i = false) (h : exec i s = .next t) :
    t.run = s.run ∧ t.fault = s.fault ∧ t.terminalRestores = s.terminalRestores :=
  exec_keeps_but (P := fun u => u.run = s.run ∧ u.fault = s.fault ∧ u.terminalRestores = s.terminalRestores) h
    ⟨rfl, rfl, rfl⟩ (hend := fun he' => absurd he' (by simp [he])) (hfault := fun he' => absurd he' (by simp [he]))

/-- Only a control transfer changes the PC beyond its increment (R24). -/
theorem exec_pc (hc : transfersControl i = false) (h : exec i s = .next t) : t.pc = s.pc :=
  exec_keeps_but (P := fun u => u.pc = s.pc) h rfl (hpc := fun hc' => absurd hc' (by simp [hc]))

/-- Only a flag-defining instruction changes COND (R27). -/
theorem exec_cond (hf : flagDest i = none) (h : exec i s = .next t) : t.cond = s.cond :=
  exec_keeps_but (P := fun u => u.cond = s.cond) h rfl (hcc := fun hf' => absurd hf' (by simp [hf]))

/-- A flag-defining instruction leaves in COND the class of what it leaves in its destination (R27, R114). -/
theorem exec_cond_of_flagDest {dr : Reg} (hf : flagDest i = some dr) (h : exec i s = .next t) :
    t.cond = condOf (t.getReg dr) := by
  have flagged : ∀ v u, (writeFlagged dr v u).cond = condOf ((writeFlagged dr v u).getReg dr) := by simp
  cases i <;> cases hf <;> cases h <;> exact flagged _ _

/-- Only the registers of the written column change (R22). -/
theorem exec_getReg {r : Reg} (hr : r ∉ destRegs i) (h : exec i s = .next t) : t.getReg r = s.getReg r :=
  have other : ∀ d ∈ destRegs i, r ≠ d := fun _ hd => (ne_of_mem_of_not_mem hd hr).symm
  exec_keeps_but (P := fun u => u.getReg r = s.getReg r) h rfl
    (hreg := fun d hd v u hu => by simp [other d hd, hu])
    (hawait := fun hk w u hu => (awaitKey_getReg w u (other _ (r0_mem_destRegs_of_readsKey hk))).trans hu)

end Frame

end Sys2Proof.Machine
end

section
/-! PROOFS. The machine invariant is kept by every step (rules R28, R29, R118, R160, R193, R196). -/

namespace Sys2Proof.Machine

open Sys2Proof

/-- The record an instruction that ends the run leaves is sound. -/
theorem exec_endsRun_sound {i : Instr} {s t : State} (he : endsRun i = true) (h : exec i s = .next t)
    (hs : s.fault.Sound) : t.fault.Sound := by
  obtain ⟨-, -, hf⟩ := exec_endsRun he h
  rcases hf with ⟨-, hf⟩ | ⟨low, rfl | rfl, hf⟩ | ⟨vec, -, hv, hf⟩ <;> rw [hf]
  · exact hs
  · exact .inl (Opcode.ofWord_formatNONE _ _)
  · exact .inr (Opcode.ofWord_formatNONE _ _)
  · exact ⟨vec, hv, rfl⟩

/-- A look at the keyboard, inside a TRAP of a RUNNING engine. -/
theorem awaitKey_inv (w : KeyWait) {s : State} (hs : StateInv s) (hrun : s.run = true) (h7 : s.getReg .r7 = s.pc) :
    StateInv (awaitKey w s) where
  mem := by simpa using hs.mem
  fault := by simpa using hs.fault
  running := by simpa using hs.running
  restores := by simpa using hs.restores
  waiting := fun _ => by simpa [awaitKey_getReg w s (show Reg.r7 ≠ .r0 by decide), hrun] using h7
  flushed := awaitKey_flushed_le w hs.flushed
  exitFault := by simpa using hs.exitFault

/-- The fetch of an engine that is not waiting. -/
theorem fetch_inv {s : State} (hs : StateInv s) (hw : s.wait = none) : StateInv (fetch s).2 where
  mem := readEffect_wf s.pc hs.mem
  fault := by simpa using hs.fault
  running := by simpa using hs.running
  restores := by simpa using hs.restores
  waiting := fun h => absurd hw (by simpa using h)
  flushed := by simpa using hs.flushed
  exitFault := by simpa using hs.exitFault

/-- A wait an instruction leaves is inside a TRAP of a RUNNING engine. -/
theorem exec_waiting {i : Instr} {s t : State} (hrun : s.run = true) (hw : s.wait = none) (h : exec i s = .next t)
    (ht : t.wait ≠ none) : t.run = true ∧ t.getReg .r7 = t.pc := by
  cases hk : readsKey i with
  | false => exact absurd ((exec_wait hk h).trans hw) ht
  | true =>
    obtain ⟨hr, -, -⟩ := exec_engine (endsRun_of_readsKey hk) h
    exact ⟨hr.trans hrun, (exec_readsKey_r7 hk h).trans (exec_pc (transfersControl_of_readsKey hk) h).symm⟩

/-- One instruction of a RUNNING engine that is not waiting: whether it ends the run decides what becomes of RUN, the
fault record and the terminal. -/
theorem exec_inv {i : Instr} {s t : State} (hs : StateInv s) (hrun : s.run = true) (hw : s.wait = none)
    (h : exec i s = .next t) : StateInv t := by
  have hzero : s.terminalRestores = 0 := hs.restores.2 hrun
  have engine : t.fault.Sound ∧ (t.run = true → t.fault.cause = .none) ∧
      (t.terminalRestores ≤ 1 ∧ (t.run = true → t.terminalRestores = 0)) := by
    cases he : endsRun i with
    | false =>
      obtain ⟨-, hfault, hrest⟩ := exec_engine he h
      rw [hfault, hrest, hzero]
      exact ⟨hs.fault, fun _ => hs.running hrun, by decide, fun _ => rfl⟩
    | true =>
      obtain ⟨hstop, hrest, -⟩ := exec_endsRun he h
      rw [hstop, hrest, hzero]
      exact ⟨exec_endsRun_sound he h hs.fault, by simp, by simp⟩
  obtain ⟨hfault, hrunning, hrestores⟩ := engine
  exact {
    mem := exec_wf h hs.mem
    fault := hfault
    running := hrunning
    restores := hrestores
    waiting := exec_waiting hrun hw h
    flushed := exec_flushed_le h hs.flushed
    exitFault := exec_params h ▸ hs.exitFault }

/-- Settles O47, by the three cases of a step: HALTED, inside a wait, one instruction after its fetch. -/
theorem invariantKeptByStep : Obligations.InvariantKeptByStep := by
  intro s t hs h
  rcases step_cases s with ⟨-, hstep⟩ | ⟨hrun, w, hw, hstep⟩ | ⟨hrun, hw, hstep⟩
  all_goals rw [hstep] at h
  · cases h; exact hs
  · obtain ⟨-, h7⟩ := hs.waiting (by simp [hw])
    cases h
    exact awaitKey_inv w hs hrun h7
  · exact exec_inv (fetch_inv hs hw) (by simpa using hrun) (by simpa using hw) h

end Sys2Proof.Machine
end

section
/-! PROOFS. The tables of rules R22 and R24: what an instruction and a resumed wait leave of the registers and the PC. -/

namespace Sys2Proof.Machine

open Sys2Proof

/-- Settles O27, by the frame of an instruction and that of a look at the keyboard. -/
theorem pcChangedOnlyByTransfers : Obligations.PcChangedOnlyByTransfers :=
  ⟨fun _ _ _ hc h => exec_pc hc h, awaitKey_pc⟩

/-- Settles O49, by the frame of an instruction and that of a look at the keyboard. -/
theorem registerWriteTable : Obligations.RegisterWriteTable :=
  ⟨fun _ _ _ h _ hr => exec_getReg hr h, fun w s _ hr => awaitKey_getReg w s (by simpa using hr)⟩

end Sys2Proof.Machine
end

section
/-! PROOFS. The canonical form of memory (rules R30, R60): a cell of such a list is what its address reads as, so the reads
fix the members, and the strict order fixes the list. -/

namespace Sys2Proof.Machine

open Sys2Proof

/-- The first cell of its address is read; in strictly rising order there is no other. -/
theorem Memory.read_of_mem {m : Memory} (hm : m.Pairwise (fun c d => c.1 < d.1)) {a v : Word}
    (hc : (a.toNat, v) ∈ m) : m.read a = v := by
  induction m with
  | nil => cases hc
  | cons d m ih =>
    obtain ⟨hd, hm⟩ := List.pairwise_cons.mp hm
    rcases List.mem_cons.mp hc with rfl | hc
    · simp [Memory.read]
    · have hne : d.1 ≠ a.toNat := (hd _ hc).ne
      simp only [Memory.read, hne, if_false, ih hm hc]

/-- What does not read as an unlisted cell stands in the list. -/
theorem Memory.mem_of_read {m : Memory} {a : Word} (h : m.read a ≠ Memory.unlisted) : (a.toNat, m.read a) ∈ m := by
  induction m with
  | nil => exact absurd rfl h
  | cons d m ih =>
    by_cases hd : d.1 = a.toNat
    · simp [Memory.read, ← hd]
    · simp only [Memory.read, hd, if_false] at h ⊢
      exact List.mem_cons_of_mem _ (ih h)

/-- The cells of a canonical memory stand in every memory that reads like it. -/
theorem Memory.subset_of_read_eq {m n : Memory} (hm : m.wf) (h : ∀ a, m.read a = n.read a) : m ⊆ n := by
  rintro ⟨k, v⟩ hc
  obtain ⟨hk, hv⟩ := hm.2 _ hc
  have ha : (BitVec.ofNat 16 k).toNat = k := Nat.mod_eq_of_lt hk
  have hread : n.read (BitVec.ofNat 16 k) = v := by
    rw [← h]
    exact Memory.read_of_mem hm.1 (by rwa [ha])
  have hmem := Memory.mem_of_read (hread ▸ hv)
  rwa [ha, hread] at hmem

/-- Settles O14: the two lists have the same members in the same strict order. -/
theorem canonicalMemoryIsUnique : Obligations.CanonicalMemoryIsUnique := by
  intro m n hm hn h
  have : Std.Irrefl (fun c d : MemCell => c.1 < d.1) := ⟨fun _ => lt_irrefl _⟩
  have : Std.Antisymm (fun c d : MemCell => c.1 < d.1) := ⟨fun _ _ h h' => absurd h' h.asymm⟩
  exact List.Subset.antisymm_of_pairwise hm.1 hn.1 (Memory.subset_of_read_eq hm h)
    (Memory.subset_of_read_eq hn fun a => (h a).symm)

end Sys2Proof.Machine
end

section
/-! PROOFS. The keys still to be read (rules R35, R115): every update leaves a suffix of them. -/

namespace Sys2Proof.Machine

open Sys2Proof

/-- The queue, then the arrivals in order. -/
def State.pending (s : State) : List Byte := s.keys ++ s.arrivals.flatten

theorem readEffect_pending (a : Word) (s : State) : (readEffect a s).pending <:+ s.pending := by
  obtain ⟨taken, h⟩ := readEffect_stream a s
  exact ⟨taken, h.symm⟩

theorem awaitKey_pending (w : KeyWait) (s : State) : (awaitKey w s).pending <:+ s.pending := by
  have hs : s.pending = s.sampleKeyboard.keys ++ s.sampleKeyboard.arrivals.flatten := (sampleKeyboard_stream s).symm
  rcases awaitKey_cases w s with ⟨-, h⟩ | ⟨k, ks, hk, h⟩
  · rw [hs, h]
    exact List.suffix_refl _
  · rw [hs, h, hk]
    cases w <;> exact ⟨[k], rfl⟩

theorem exec_pending {i : Instr} {s t : State} (h : exec i s = .next t) : t.pending <:+ s.pending :=
  exec_keeps_but (P := fun u => u.pending <:+ s.pending) h (List.suffix_refl _)
    (hread := fun _ a u hu => (readEffect_pending a u).trans hu)
    (hawait := fun _ w u hu => (awaitKey_pending w u).trans hu)

/-- What a step leaves to be read is a suffix of what was there. -/
theorem step_pending {s t : State} (h : step s = .next t) : t.pending <:+ s.pending := by
  rcases step_cases s with ⟨-, hstep⟩ | ⟨-, w, -, hstep⟩ | ⟨-, -, hstep⟩
  all_goals rw [hstep] at h
  · cases h; exact List.suffix_refl _
  · cases h; exact awaitKey_pending w s
  · exact (exec_pending h).trans (readEffect_pending s.pc s)

/-- An instruction that reads neither memory nor a key does not look at the keyboard. -/
theorem exec_keyboard {i : Instr} {s t : State} (hm : readsMemory i = false) (hk : readsKey i = false)
    (h : exec i s = .next t) : t.keys = s.keys ∧ t.arrivals = s.arrivals :=
  exec_keeps_but (P := fun u => u.keys = s.keys ∧ u.arrivals = s.arrivals) h ⟨rfl, rfl⟩
    (hread := fun hm' => absurd hm' (by simp [hm])) (hawait := fun hk' => absurd hk' (by simp [hk]))

/-- Settles O53, by the suffix each step leaves, and by the frame of an instruction that reads neither memory nor a key. -/
theorem keysLeaveInOrder : Obligations.KeysLeaveInOrder := by
  refine ⟨fun s t h => ?_, fun i s t hm hgetc hin h20 h23 h => ?_⟩
  · obtain ⟨taken, hp⟩ := step_pending h
    exact ⟨taken, hp.symm⟩
  · have hk : readsKey i = false := by
      rw [← Bool.not_eq_true, readsKey_iff]
      simp [hgetc, hin, h20, h23]
    exact exec_keyboard hm hk h

end Sys2Proof.Machine
end

section
/-! PROOFS. What a decoded instruction says of its word: it is well-formed (rule R96), and a reserved instruction holds the
twelve low bits of a word of its opcode (rules R88, R191). -/

namespace Sys2Proof

theorem decodeJmp_wellFormed (base : Reg) : (decodeJmp base).wellFormed = true := by
  unfold decodeJmp
  split
  · rfl
  · simpa [Instr.wellFormed]

theorem decodeTrap_wellFormed (vec : BitVec 8) : (decodeTrap vec).wellFormed = true := by
  unfold decodeTrap
  split_ifs
  case neg h0 h1 h2 h3 h4 h5 =>
    simp [Instr.wellFormed, Machine.recognisedVector_eq_false ⟨h0, h1, h2, h3, h4, h5⟩]
  all_goals rfl

theorem decode_wellFormed (w : Word) : (decode w).wellFormed = true := by
  unfold decode
  split
  case h_13 => exact decodeJmp_wellFormed _
  case h_16 => exact decodeTrap_wellFormed _
  case h_2 | h_5 | h_6 => split <;> rfl
  all_goals rfl

/-- The opcode of an instruction's row (R88). -/
def Instr.opcode : Instr → Opcode
  | .br _ _ _ _ => .br
  | .addReg _ _ _ | .addImm _ _ _ => .add
  | .ld _ _ => .ld
  | .st _ _ => .st
  | .jsr _ | .jsrr _ => .jsr
  | .andReg _ _ _ | .andImm _ _ _ => .and
  | .ldr _ _ _ => .ldr
  | .str _ _ _ => .str
  | .rti _ => .rti
  | .not _ _ => .not
  | .ldi _ _ => .ldi
  | .sti _ _ => .sti
  | .jmp _ | .ret => .jmp
  | .res _ => .res
  | .lea _ _ => .lea
  | .trap _ | .getc | .out | .puts | .inKey | .putsp | .halt => .trap

theorem decode_opcode (w : Word) : (decode w).opcode = Opcode.ofWord w := by
  unfold decode
  split
  case h_13 h =>
    rw [h, decodeJmp]
    split <;> rfl
  case h_16 h =>
    rw [h, decodeTrap]
    split_ifs <;> rfl
  case h_2 h | h_5 h | h_6 h =>
    rw [h]
    split <;> rfl
  all_goals simp only [*, Instr.opcode]

theorem Opcode.bits_ofWord (w : Word) : (Opcode.ofWord w).bits = w.extractLsb' 12 4 := by
  refine BitVec.eq_of_getLsbD_eq fun i hi => ?_
  unfold Opcode.ofWord
  split <;> interval_cases i <;> simp_all [Opcode.bits]

/-- A word is its opcode and the twelve bits below it. -/
theorem formatNONE_ofWord (w : Word) : formatNONE (Opcode.ofWord w) (fieldLow12 w) = w := by
  refine BitVec.eq_of_getLsbD_eq fun i hi => ?_
  rw [formatNONE_bit, Opcode.bits_ofWord]
  by_cases h : i < 12
  · simp [fieldLow12, h]
  · simp [h, show i - 12 < 4 by omega, show 12 + (i - 12) = i by omega]

/-- A reserved instruction holds the whole of the word it was decoded from. -/
theorem encode_decode_reserved {w : Word} {low : BitVec 12} (h : decode w = .rti low ∨ decode w = .res low) :
    (Opcode.ofWord w = .rti ∨ Opcode.ofWord w = .res) ∧ encode (decode w) = w := by
  have hop : Opcode.ofWord w = .rti ∨ Opcode.ofWord w = .res := by
    rw [← decode_opcode]
    exact h.imp (fun h => by rw [h]; rfl) (fun h => by rw [h]; rfl)
  refine ⟨hop, ?_⟩
  rcases hop with hop | hop <;> simpa only [decode, encode, hop] using formatNONE_ofWord w

end Sys2Proof
end

section
/-! PROOFS. How a run ends (rules R28, R29, R190). -/

namespace Sys2Proof.Machine

open Sys2Proof

/-- The record of an instruction that ends the run, in terms of the word it was decoded from: of the two terms for HALT the
decoder gives `halt` alone. -/
theorem exec_endsRun_decoded {w : Word} {s t : State} (he : endsRun (decode w) = true)
    (h : exec (decode w) s = .next t) :
    (decode w = .halt ∧ t.fault = s.fault) ∨
      ((Opcode.ofWord w = .rti ∨ Opcode.ofWord w = .res) ∧ t.fault = ⟨.invalidOpcode, w⟩) ∨
      ∃ vec, decode w = .trap vec ∧ t.fault = ⟨.invalidTrapVector, zext vec⟩ := by
  obtain ⟨-, -, hf⟩ := exec_endsRun he h
  rcases hf with ⟨hi | hi, hf⟩ | ⟨low, hi, hf⟩ | ⟨vec, hi, -, hf⟩
  · exact .inl ⟨hi, hf⟩
  · exact absurd (hi ▸ decode_wellFormed w) (by decide)
  · obtain ⟨hop, hw⟩ := encode_decode_reserved hi
    exact .inr (.inl ⟨hop, hw ▸ hf⟩)
  · exact .inr (.inr ⟨vec, hi, hf⟩)

/-- Settles O54, by the three cases of a step; an instruction ends the run or leaves RUN and the record. -/
theorem runEndsOnlyByHaltOrFatal : Obligations.RunEndsOnlyByHaltOrFatal := by
  intro s t h
  rcases step_cases s with ⟨hrun, hstep⟩ | ⟨hrun, w, -, hstep⟩ | ⟨hrun, hw, hstep⟩
  all_goals rw [hstep] at h
  · cases h
    simp [hrun]
  · cases h
    simp [hrun]
  · have hrun' : (fetch s).2.run = true := by simpa using hrun
    have hfault' : (fetch s).2.fault = s.fault := by simp
    cases he : endsRun (decode (fetch s).1) with
    | false =>
      obtain ⟨hr, hf, -⟩ := exec_engine he h
      rw [hr, hf, hrun', hfault', hrun]
      simp
    | true =>
      obtain ⟨hr, -⟩ := exec_endsRun he h
      rw [hr, hrun, ← hfault']
      exact ⟨by simp, by simp, fun _ _ => ⟨hw, exec_endsRun_decoded he h⟩⟩

end Sys2Proof.Machine
end

section
/-! PROOFS. Reset and the boot (rules R36, R220 to R225). -/

namespace Sys2Proof.Machine

open Sys2Proof

/-- Settles O6, by the definition of `State.reset`; the boot of no image only starts the engine. -/
theorem resetValues : Obligations.ResetValues :=
  ⟨fun r => by cases r <;> rfl, rfl, rfl, rfl, rfl, fun _ => rfl, rfl, rfl, rfl, rfl⟩

/-- Storing words changes memory alone, and keeps its canonical form. -/
theorem loadWords_mem (ws : List Word) (a : Word) (s : State) :
    ∃ m, loadWords a ws s = { s with mem := m } ∧ (s.mem.wf → m.wf) := by
  induction ws generalizing a s with
  | nil => exact ⟨s.mem, rfl, id⟩
  | cons w ws ih =>
    obtain ⟨m, hm, hwf⟩ := ih (a + 1#16) (s.setCell a w)
    exact ⟨m, hm, fun h => hwf (State.setCell_wf h a w)⟩

/-- So does loading images. -/
theorem loadImages_mem {ims : List Image} {s t : State} (h : loadImages ims s = .next t) :
    ∃ m, t = { s with mem := m } ∧ (s.mem.wf → m.wf) := by
  induction ims generalizing s with
  | nil => cases h; exact ⟨t.mem, rfl, id⟩
  | cons im ims ih =>
    simp only [loadImages] at h
    split at h
    · obtain ⟨m, hm, hwf⟩ := loadWords_mem im.words im.origin s
      rw [hm] at h
      obtain ⟨m', rfl, hwf'⟩ := ih h
      exact ⟨m', rfl, hwf' ∘ hwf⟩
    · cases h

/-- The boot hands over the reset state but for its memory. -/
theorem boot_next {init : Memory} {ims : List Image} {s : State} (h : boot init ims = .next s) :
    ∃ m, s = { State.reset with mem := m } ∧ (init.wf → m.wf) := by
  unfold boot at h
  split at h
  next t ht =>
    cases h
    obtain ⟨m, rfl, hwf⟩ := loadImages_mem ht
    exact ⟨m, rfl, hwf⟩
  all_goals cases h

/-- The reset values satisfy the invariant over any canonical memory, before the start and after it. -/
theorem reset_inv {m : Memory} (hm : m.wf) (running : Bool) :
    StateInv { State.reset with mem := m, run := running } where
  mem := hm
  fault := rfl
  running := fun _ => rfl
  restores := ⟨Nat.zero_le 1, fun _ => rfl⟩
  waiting := fun h => absurd rfl h
  flushed := le_refl 0
  exitFault := Nat.one_ne_zero

/-- Settles O48: reset, power-on and the boot differ in memory and RUN only. -/
theorem invariantAtStart : Obligations.InvariantAtStart := by
  refine ⟨reset_inv State.reset_mem_wf true, fun init hinit => ⟨reset_inv hinit false, fun ims s h => ?_⟩⟩
  obtain ⟨m, rfl, hwf⟩ := boot_next h
  exact reset_inv (hwf hinit) true

end Sys2Proof.Machine
end

section
/-! PROOFS. What an instruction does not read (rules R22, R27): a change of registers and COND that no part of an
instruction sees is, update by update, either overwritten or still there at the end. -/

namespace Sys2Proof.Machine

open Sys2Proof

/-! ## A change of the registers and COND -/

/-- The state with its registers and its COND changed by `g` and `k`. -/
def State.alter (g : RegFile → RegFile) (k : Cond → Cond) (s : State) : State :=
  { s with regs := g s.regs, cond := k s.cond }

theorem stringFuel_congr {s t : State} (hk : t.keys = s.keys) (ha : t.arrivals = s.arrivals) :
    stringFuel t = stringFuel s := by
  rw [stringFuel, stringFuel, hk, ha]

section Alter

variable (g : RegFile → RegFile) (k : Cond → Cond)

/-- The keyboard does not depend on registers or COND. -/
theorem keyRead_alter (s : State) : keyRead (s.alter g k) = ((keyRead s).1, (keyRead s).2.alter g k) := by
  have hs : (s.alter g k).sampleKeyboard = s.sampleKeyboard.alter g k := by
    cases h : s.arrivals with
    | nil => rw [sampleKeyboard_nil h, sampleKeyboard_nil (s := s.alter g k) h]
    | cons b bs => rw [sampleKeyboard_cons h, sampleKeyboard_cons (s := s.alter g k) h]; rfl
  have hk : (s.alter g k).sampleKeyboard.keys = s.sampleKeyboard.keys := by rw [hs]; rfl
  cases h : s.sampleKeyboard.keys with
  | nil => rw [keyRead_nil h, keyRead_nil (hk.trans h), hs]
  | cons b bs => rw [keyRead_cons h, keyRead_cons (hk.trans h), hs]; rfl

/-- A read does not depend on registers or COND. -/
theorem readEffect_alter (a : Word) (s : State) :
    readEffect a (s.alter g k) = (readEffect a s).alter g k := by
  by_cases ha : a = Config.kbsrAddr
  · subst ha
    simp only [readEffect_kbsr, pollKeyboard, keyRead_alter]
    rcases keyRead s with ⟨_ | b, t⟩ <;> rfl
  · rw [readEffect_ordinary ha, readEffect_ordinary ha]

/-- Nor does the pointer of the indirect mode. -/
theorem indirect_alter (off : BitVec 9) (s : State) : (indirect off (s.alter g k)).1 = (indirect off s).1 := by
  change (readEffect (pcRelative off s) (s.alter g k)).cell _ = _
  rw [readEffect_alter]
  rfl

/-- Nor does the loop of the string routines. -/
theorem stringLoop_alter (cell : Word → CellOutput) (n : Nat) (a : Word) (s : State) :
    stringLoop cell n a (s.alter g k) = (stringLoop cell n a s).map (State.alter g k) := by
  induction n generalizing a s with
  | zero => rfl
  | succ n ih =>
    have hr : (memRead a (s.alter g k)).1 = (memRead a s).1 := by
      rw [memRead_fst, readEffect_alter]; rfl
    cases hl : (cell (memRead a s).1).last with
    | true =>
      rw [stringLoop_last n hl, stringLoop_last n (hr ▸ hl), hr, memRead_snd, readEffect_alter]
      rfl
    | false =>
      rw [stringLoop_more n hl, stringLoop_more n (hr ▸ hl), hr, memRead_snd, readEffect_alter]
      exact ih _ ((readEffect a s).consoleWriteAll _)

/-- A string routine reads R0 alone. -/
theorem printString_alter (cell : Word → CellOutput) {s : State} (h0 : (s.alter g k).getReg .r0 = s.getReg .r0) :
    printString cell (s.alter g k) = mapNext (State.alter g k) (printString cell s) := by
  have hfuel : stringFuel (s.alter g k) = stringFuel s := stringFuel_congr rfl rfl
  rw [printString, printString, h0, hfuel, stringLoop_alter]
  cases stringLoop cell (stringFuel s) (s.getReg .r0) s with
  | none => rfl
  | some t => rfl

end Alter

/-! ## Overwritten or still there -/

/-- `f` before `h` is overwritten by `h`, or the same as `f` after `h`. -/
def Absorbs (h f : State → State) : Prop := ∀ u, h (f u) = h u ∨ h (f u) = f (h u)

theorem Absorbs.of_comm {f h : State → State} (hc : ∀ u, h (f u) = f (h u)) : Absorbs h f := fun u => .inr (hc u)

theorem Absorbs.comp {f h h' : State → State} (hh' : Absorbs h' f) (hh : Absorbs h f) : Absorbs (h' ∘ h) f := by
  intro u
  rcases hh u with e | e
  · exact .inl (congrArg h' e)
  · exact (hh' (h u)).imp (congrArg h' e).trans (congrArg h' e).trans

/-- Two outcomes, the second with `f` before it: `f` is overwritten, or still there in the next state. -/
def OutcomeAbsorbs (f : State → State) (o o' : Host.Outcome State Fault Refusal) : Prop := o' = o ∨ o' = mapNext f o

theorem Absorbs.next {f h : State → State} (hh : Absorbs h f) (u : State) :
    OutcomeAbsorbs f (.next (h u)) (.next (h (f u))) :=
  (hh u).imp (congrArg _) (congrArg _)

/-- TRAP by its vector (R160, R161). -/
theorem exec_trap_eq (vec : BitVec 8) (s : State) :
    exec (.trap vec) s =
      if vec = 0x20#8 then exec .getc s
      else if vec = 0x21#8 then exec .out s
      else if vec = 0x22#8 then exec .puts s
      else if vec = 0x23#8 then exec .inKey s
      else if vec = 0x24#8 then exec .putsp s
      else if vec = 0x25#8 then exec .halt s
      else .next (raiseInvalidTrapVector vec (saveReturn s)) := rfl

section Routines

variable {g : RegFile → RegFile} {k : Cond → Cond}
  (hset : ∀ d v, Absorbs (fun u => u.setReg d v) (State.alter g k))

include hset

theorem saveReturn_absorbs : Absorbs saveReturn (State.alter g k) := fun u => hset .r7 u.pc u

/-- A look at the keyboard overwrites R0 if there is a key, and no register else. -/
theorem awaitKey_absorbs (w : KeyWait) : Absorbs (awaitKey w) (State.alter g k) := by
  intro u
  unfold awaitKey
  rw [keyRead_alter]
  rcases keyRead u with ⟨_ | b, t⟩
  · exact .inr rfl
  · cases w with
    | getc => exact hset .r0 (zext b) { t with wait := none }
    | inKey => exact hset .r0 (zext b) (({ t with wait := none : State }.consoleWrite b).consoleFlush)

theorem exec_getc_alter (s : State) :
    OutcomeAbsorbs (State.alter g k) (exec .getc s) (exec .getc (s.alter g k)) :=
  ((awaitKey_absorbs hset .getc).comp (saveReturn_absorbs hset)).next s

theorem exec_inKey_alter (s : State) :
    OutcomeAbsorbs (State.alter g k) (exec .inKey s) (exec .inKey (s.alter g k)) :=
  have prompt : Absorbs (fun u => (u.consoleWriteAll s.params.inPrompt).consoleFlush) (State.alter g k) :=
    .of_comm fun _ => rfl
  ((awaitKey_absorbs hset .inKey).comp (prompt.comp (saveReturn_absorbs hset))).next s

theorem exec_halt_alter (s : State) :
    OutcomeAbsorbs (State.alter g k) (exec .halt s) (exec .halt (s.alter g k)) :=
  have ending : Absorbs (fun u => (u.consoleWriteAll s.params.haltMsg).consoleFlush.restoreTerminal.stop)
      (State.alter g k) := .of_comm fun _ => rfl
  (ending.comp (saveReturn_absorbs hset)).next s

theorem exec_out_alter (h0 : ∀ u : State, (u.alter g k).getReg .r0 = u.getReg .r0) (s : State) :
    OutcomeAbsorbs (State.alter g k) (exec .out s) (exec .out (s.alter g k)) := by
  have writing : Absorbs (fun u => (u.consoleWrite (lowByte (s.getReg .r0))).consoleFlush) (State.alter g k) :=
    .of_comm fun _ => rfl
  rw [exec_out, exec_out, h0]
  exact (writing.comp (saveReturn_absorbs hset)).next s

theorem printString_saveReturn_alter (h0 : ∀ u : State, (u.alter g k).getReg .r0 = u.getReg .r0)
    (cell : Word → CellOutput) (s : State) :
    OutcomeAbsorbs (State.alter g k) (printString cell (saveReturn s)) (printString cell (saveReturn (s.alter g k))) := by
  rcases saveReturn_absorbs hset s with e | e <;> rw [e]
  · exact .inl rfl
  · exact .inr (printString_alter g k cell (h0 _))

theorem exec_puts_alter (h0 : ∀ u : State, (u.alter g k).getReg .r0 = u.getReg .r0) (s : State) :
    OutcomeAbsorbs (State.alter g k) (exec .puts s) (exec .puts (s.alter g k)) :=
  printString_saveReturn_alter hset h0 putsCell s

theorem exec_putsp_alter (h0 : ∀ u : State, (u.alter g k).getReg .r0 = u.getReg .r0) (s : State) :
    OutcomeAbsorbs (State.alter g k) (exec .putsp s) (exec .putsp (s.alter g k)) :=
  printString_saveReturn_alter hset h0 (putspCell s.params.putspRule) s

/-- TRAP with any vector is one of its routines, or the fatal condition, which reads no register. -/
theorem exec_trap_alter (vec : BitVec 8)
    (h0 : Reg.r0 ∈ sourceRegs (.trap vec) → ∀ u : State, (u.alter g k).getReg .r0 = u.getReg .r0) (s : State) :
    OutcomeAbsorbs (State.alter g k) (exec (.trap vec) s) (exec (.trap vec) (s.alter g k)) := by
  rw [exec_trap_eq, exec_trap_eq]
  split_ifs with h20 h21 h22 h23 h24 h25
  · exact exec_getc_alter hset s
  · exact exec_out_alter hset (h0 (by simp [sourceRegs, h21])) s
  · exact exec_puts_alter hset (h0 (by simp [sourceRegs, h22])) s
  · exact exec_inKey_alter hset s
  · exact exec_putsp_alter hset (h0 (by simp [sourceRegs, h24])) s
  · exact exec_halt_alter hset s
  · have fatal : Absorbs (raiseInvalidTrapVector vec) (State.alter g k) := .of_comm fun _ => rfl
    exact (fatal.comp (saveReturn_absorbs hset)).next s

/-- A change that keeps the source registers, keeps COND before a BR, and is overwritten by or commutes with each write of a
register and of COND, is overwritten by or commutes with the instruction. -/
theorem exec_alter {i : Instr} (hsrc : ∀ r ∈ sourceRegs i, ∀ u : State, (u.alter g k).getReg r = u.getReg r)
    (hbr : ∀ n z p off, i = .br n z p off → ∀ c, k c = c)
    (hcc : ∀ v, Absorbs (setcc v) (State.alter g k)) (s : State) :
    OutcomeAbsorbs (State.alter g k) (exec i s) (exec i (s.alter g k)) := by
  have hflag : ∀ d v, Absorbs (writeFlagged d v) (State.alter g k) := fun d v =>
    have hparts : writeFlagged d v = setcc v ∘ fun u => u.setReg d v := funext (writeFlagged_eq d v)
    hparts ▸ (hcc v).comp (hset d v)
  cases i with
  | br n z p off =>
    have hc : (s.alter g k).cond = s.cond := hbr n z p off rfl s.cond
    rw [exec_br, exec_br, hc]
    split <;> exact .inr rfl
  | addReg dr a b =>
    rw [exec_addReg, exec_addReg, hsrc a (.head _), hsrc b (.tail _ (.head _))]
    exact (hflag dr _).next s
  | addImm dr a imm =>
    rw [exec_addImm, exec_addImm, hsrc a (.head _)]
    exact (hflag dr _).next s
  | andReg dr a b =>
    rw [exec_andReg, exec_andReg, hsrc a (.head _), hsrc b (.tail _ (.head _))]
    exact (hflag dr _).next s
  | andImm dr a imm =>
    rw [exec_andImm, exec_andImm, hsrc a (.head _)]
    exact (hflag dr _).next s
  | not dr a =>
    rw [exec_not, exec_not, hsrc a (.head _)]
    exact (hflag dr _).next s
  | lea dr off => exact (hflag dr _).next s
  | ld dr off =>
    rw [exec_ld, exec_ld, readEffect_alter]
    exact (hflag dr _).next (readEffect _ s)
  | ldr dr base off =>
    rw [exec_ldr, exec_ldr, hsrc base (.head _), readEffect_alter]
    exact (hflag dr _).next (readEffect _ s)
  | ldi dr off =>
    rw [exec_ldi, exec_ldi, indirect_alter, readEffect_alter, readEffect_alter]
    exact (hflag dr _).next (readEffect _ (readEffect _ s))
  | st sr off =>
    rw [exec_st, exec_st, hsrc sr (.head _)]
    exact .inr rfl
  | str sr base off =>
    rw [exec_str, exec_str, hsrc sr (.head _), hsrc base (.tail _ (.head _))]
    exact .inr rfl
  | sti sr off =>
    rw [exec_sti, exec_sti, hsrc sr (.head _), indirect_alter, readEffect_alter]
    exact .inr rfl
  | jmp base =>
    rw [exec_jmp, exec_jmp, hsrc base (.head _)]
    exact .inr rfl
  | ret =>
    rw [exec_ret, exec_ret, hsrc .r7 (.head _)]
    exact .inr rfl
  | jsr off =>
    have jump : Absorbs (fun u => u.setPc (s.pc + sext off)) (State.alter g k) := .of_comm fun _ => rfl
    exact (jump.comp (saveReturn_absorbs hset)).next s
  | jsrr base =>
    have target : (saveReturn (s.alter g k)).getReg base = (saveReturn s).getReg base := by
      rw [saveReturn_getReg, saveReturn_getReg, hsrc base (.head _)]
      rfl
    have jump : Absorbs (fun u => u.setPc ((saveReturn s).getReg base)) (State.alter g k) := .of_comm fun _ => rfl
    rw [exec_jsrr, exec_jsrr, target]
    exact (jump.comp (saveReturn_absorbs hset)).next s
  | rti low => exact .inr rfl
  | res low => exact .inr rfl
  | getc => exact exec_getc_alter hset s
  | out => exact exec_out_alter hset (hsrc .r0 (.head _)) s
  | puts => exact exec_puts_alter hset (hsrc .r0 (.head _)) s
  | inKey => exact exec_inKey_alter hset s
  | putsp => exact exec_putsp_alter hset (hsrc .r0 (.head _)) s
  | halt => exact exec_halt_alter hset s
  | trap vec => exact exec_trap_alter hset vec (hsrc .r0) s

end Routines

/-- A change that every next state already shows changes no outcome. -/
theorem mapNext_eq_self {f : State → State} {o : Host.Outcome State Fault Refusal} (h : ∀ t, o = .next t → f t = t) :
    mapNext f o = o := by
  cases o with
  | next t => exact congrArg _ (h t rfl)
  | fault r => rfl
  | refused r => rfl

/-! ## COND (R27) -/

/-- A change of COND to the value it has is none. -/
theorem alter_cond_eq_self {t : State} {c : Cond} (h : t.cond = c) : t.alter id (fun _ => c) = t := by
  subst h
  rfl

theorem exec_alter_cond {i : Instr} (hbr : ∀ n z p off, i ≠ .br n z p off) (c : Cond) (s : State) :
    OutcomeAbsorbs (State.alter id fun _ => c) (exec i s) (exec i (s.alter id fun _ => c)) :=
  exec_alter (hset := fun _ _ => .of_comm fun _ => rfl) (hsrc := fun _ _ _ => rfl)
    (hbr := fun n z p off h => absurd h (hbr n z p off))
    (hcc := fun _ _ => .inl rfl) s

/-- Settles O12: whether a new COND is overwritten or still there at the end is told by COND there: the class of the
destination after a flag-defining instruction, what it was before after any other. -/
theorem condReadOnlyByBranch : Obligations.CondReadOnlyByBranch := by
  intro i c s hbr
  cases hf : flagDest i with
  | none =>
    change exec i (s.alter id fun _ => c) = mapNext (State.alter id fun _ => c) (exec i s)
    rcases exec_alter_cond hbr c s with e | e
    · have kept : ∀ t, exec i s = .next t → t.cond = c := fun t ht => exec_cond hf (e.trans ht)
      rw [e, mapNext_eq_self fun t ht => alter_cond_eq_self (kept t ht)]
    · exact e
  | some dr =>
    change exec i (s.alter id fun _ => c) = mapNext id (exec i s)
    rw [mapNext_eq_self (f := id) fun _ _ => rfl]
    rcases exec_alter_cond hbr c s with e | e
    · exact e
    · have defined : ∀ t, exec i s = .next t → t.cond = c := fun t ht =>
        have ht' : exec i (s.alter id fun _ => c) = .next (t.alter id fun _ => c) := by rw [e, ht]; rfl
        (exec_cond_of_flagDest hf ht).trans (exec_cond_of_flagDest hf ht').symm
      rw [e, mapNext_eq_self fun t ht => alter_cond_eq_self (defined t ht)]

/-! ## General registers (R22) -/

theorem setReg_eq_self {t : State} {r : Reg} {v : Word} (h : t.getReg r = v) : t.setReg r v = t := by
  subst h
  cases r <;> rfl

theorem setReg_absorbs (r d : Reg) (v w : Word) :
    Absorbs (fun u => u.setReg d w) (State.alter (fun f => f.set r v) id) := by
  intro u
  by_cases h : r = d
  · subst h
    exact .inl (congrArg (fun f => { u with regs := f }) (RegFile.set_set u.regs r v w))
  · exact .inr (congrArg (fun f => { u with regs := f }) (RegFile.set_comm u.regs r d v w h))

theorem exec_setReg {i : Instr} {r : Reg} (hr : r ∉ sourceRegs i) (v : Word) (s : State) :
    OutcomeAbsorbs (fun t => t.setReg r v) (exec i s) (exec i (s.setReg r v)) :=
  have other : ∀ q ∈ sourceRegs i, ∀ u : State, (u.setReg r v).getReg q = u.getReg q := fun q hq u => by
    simp [ne_of_mem_of_not_mem hq hr]
  exec_alter (g := fun f => f.set r v) (k := id) (hset := fun d w => setReg_absorbs r d v w) (hsrc := other)
    (hbr := fun _ _ _ _ _ _ => rfl) (hcc := fun _ => .of_comm fun _ => rfl) s

/-- Settles O50: a value in a register that is not read is overwritten or still there; where the register is not written
either, the next state has it in both cases. -/
theorem registerReadTable : Obligations.RegisterReadTable := by
  intro i r v s hr
  refine ⟨exec_setReg hr v s, fun hd => ?_⟩
  rcases exec_setReg hr v s with e | e
  · have kept : ∀ t, exec i s = .next t → t.getReg r = v := fun t ht => by
      rw [exec_getReg hd (e.trans ht), State.setReg_getReg, if_pos rfl]
    rw [e, mapNext_eq_self fun t ht => setReg_eq_self (kept t ht)]
  · exact e

end Sys2Proof.Machine
end

section
/-! PROOFS. The reads and writes of the memory array (rules R56, R58, R59): what a store leaves at its address, and that a
read of any address but `KBSR` is the cell alone. -/

namespace Sys2Proof.Machine

open Sys2Proof

/-- Settles O13, by the read after a write of the memory array; the rest of the state is the store's own definition. -/
theorem storedCellIsRead : Obligations.StoredCellIsRead :=
  fun a v b s => ⟨memWrite_cell a v s b, rfl⟩

theorem memRead_ordinary {a : Word} (h : a ≠ Config.kbsrAddr) (s : State) : memRead a s = (s.cell a, s) := by
  rw [memRead, readEffect_ordinary h]

/-- Settles O17: the state after the read is the state before it, so the second read is the first. -/
theorem ordinaryReadChangesNothing : Obligations.OrdinaryReadChangesNothing := by
  intro a s h
  have hread := memRead_ordinary h s
  exact ⟨hread, by rw [hread, hread]⟩

end Sys2Proof.Machine
end

section
/-! PROOFS. The read of `KBSR` (rules R53, R54): the two device cells after a poll with a key and after one without, and
that either poll leaves bits 14:0 of `KBSR`. -/

namespace Sys2Proof.Machine

open Sys2Proof

/-! ## Bit 15 of a word -/

theorem getLsbD_set15 (v : Word) : (v ||| 0x8000#16).getLsbD 15 = true := by
  rw [BitVec.getLsbD_or]
  exact Bool.or_true _

theorem getLsbD_clear15 (v : Word) : (v &&& 0x7FFF#16).getLsbD 15 = false := by
  rw [BitVec.getLsbD_and]
  exact Bool.and_false _

theorem getLsbD_set15_low (v : Word) {i : Nat} (hi : i < 15) : (v ||| 0x8000#16).getLsbD i = v.getLsbD i := by
  have hmask : ∀ i < 15, (0x8000#16).getLsbD i = false := by decide
  rw [BitVec.getLsbD_or, hmask i hi, Bool.or_false]

theorem getLsbD_clear15_low (v : Word) {i : Nat} (hi : i < 15) : (v &&& 0x7FFF#16).getLsbD i = v.getLsbD i := by
  have hmask : ∀ i < 15, (0x7FFF#16).getLsbD i = true := by decide
  rw [BitVec.getLsbD_and, hmask i hi, Bool.and_true]

/-! ## The device cells after a poll -/

section Poll

variable {s : State}

theorem kbsrAddr_ne_kbdrAddr : Config.kbsrAddr ≠ Config.kbdrAddr := by decide

theorem pollKeyboard_cell_kbsr_of_key {k : Byte} {ks : List Byte} (h : s.sampleKeyboard.keys = k :: ks) :
    (pollKeyboard s).cell Config.kbsrAddr = s.cell Config.kbsrAddr ||| 0x8000#16 := by
  simp [pollKeyboard_cons h, State.cell_eq, kbsrAddr_ne_kbdrAddr]

theorem pollKeyboard_cell_kbdr_of_key {k : Byte} {ks : List Byte} (h : s.sampleKeyboard.keys = k :: ks) :
    (pollKeyboard s).cell Config.kbdrAddr = zext k := by
  simp [pollKeyboard_cons h, State.cell_eq, zext]

theorem pollKeyboard_cell_kbsr_of_no_key (h : s.sampleKeyboard.keys = []) :
    (pollKeyboard s).cell Config.kbsrAddr = s.cell Config.kbsrAddr &&& 0x7FFF#16 := by
  simp [pollKeyboard_nil h, State.cell_eq]

theorem pollKeyboard_cell_kbdr_of_no_key (h : s.sampleKeyboard.keys = []) :
    (pollKeyboard s).cell Config.kbdrAddr = s.cell Config.kbdrAddr := by
  simp [pollKeyboard_nil h, State.cell_eq, kbsrAddr_ne_kbdrAddr.symm]

end Poll

theorem zext_toNat (k : Byte) : (zext k).toNat = k.toNat :=
  BitVec.toNat_setWidth_of_le (by decide)

/-- A read of `KBSR`, with a key or without, leaves bits 14:0 of its cell (R53, R54). -/
theorem memRead_kbsr_getLsbD_low (s : State) {i : Nat} (hi : i < 15) :
    (memRead Config.kbsrAddr s).1.getLsbD i = (s.cell Config.kbsrAddr).getLsbD i := by
  rw [memRead_fst, readEffect_kbsr]
  rcases keyRead_cases s with ⟨h, -⟩ | ⟨k, ks, h, -⟩
  · rw [pollKeyboard_cell_kbsr_of_no_key h, getLsbD_clear15_low _ hi]
  · rw [pollKeyboard_cell_kbsr_of_key h, getLsbD_set15_low _ hi]

/-- Settles O15, by the device cells after a poll with a key and the frame of a read. -/
theorem kbsrReadWithKey : Obligations.KbsrReadWithKey := by
  intro s k ks h
  refine ⟨?_, fun i hi => memRead_kbsr_getLsbD_low s hi, rfl, ?_, ?_, ?_, readEffect_frame _ s⟩
  · rw [memRead_fst, readEffect_kbsr, pollKeyboard_cell_kbsr_of_key h, getLsbD_set15]
  · rw [memRead_snd, readEffect_kbsr, pollKeyboard_cell_kbdr_of_key h, zext_toNat]
  · rw [memRead_snd, readEffect_kbsr, pollKeyboard_cons h]
  · rw [memRead_snd, readEffect_kbsr, pollKeyboard_cons h]

/-- Settles O16, by the device cells after a poll without a key and the frame of a read. -/
theorem kbsrReadWithoutKey : Obligations.KbsrReadWithoutKey := by
  intro s h
  refine ⟨?_, fun i hi => memRead_kbsr_getLsbD_low s hi, rfl, ?_, ?_, ?_, readEffect_frame _ s⟩
  · rw [memRead_fst, readEffect_kbsr, pollKeyboard_cell_kbsr_of_no_key h, getLsbD_clear15]
  · rw [memRead_snd, readEffect_kbsr, pollKeyboard_cell_kbdr_of_no_key h]
  · rw [memRead_snd, readEffect_kbsr, pollKeyboard_nil h]
  · rw [memRead_snd, readEffect_kbsr, pollKeyboard_nil h]

end Sys2Proof.Machine
end

section
/-! PROOFS. Which cells an instruction changes (rules R57, R58, R65): a store alone writes memory, and a read reaches only
the two device cells. -/

namespace Sys2Proof.Machine

open Sys2Proof

@[simp] theorem awaitKey_cell (w : KeyWait) (s : State) (a : Word) : (awaitKey w s).cell a = s.cell a := by
  rw [State.cell_eq, State.cell_eq, awaitKey_mem]

/-- An instruction that is no store leaves a cell that its reads, if it makes any, do not refresh. -/
theorem exec_cell {i : Instr} {s t : State} {a : Word} (hw : writesMemory i = false)
    (ha : readsMemory i = true → a ≠ Config.kbsrAddr ∧ a ≠ Config.kbdrAddr) (h : exec i s = .next t) :
    t.cell a = s.cell a :=
  exec_keeps_but (P := fun u => u.cell a = s.cell a) h rfl
    (hread := fun hm b u hu => (readEffect_cell_ordinary b u (ha hm).1 (ha hm).2).trans hu)
    (hstore := fun hw' => absurd hw' (by simp [hw]))

/-- Settles O51: no read refreshes a cell beside the device cells, and an instruction without reads refreshes none. -/
theorem memoryWrittenOnlyByStores : Obligations.MemoryWrittenOnlyByStores :=
  ⟨fun _ _ _ hw h _ hkbsr hkbdr => exec_cell hw (fun _ => ⟨hkbsr, hkbdr⟩) h,
    fun _ _ _ hw hm h _ => exec_cell hw (fun hm' => absurd hm' (by simp [hm])) h, awaitKey_cell⟩

end Sys2Proof.Machine
end

section
/-! PROOFS. Self-modifying code (rule R68): a store over the next instruction, and the fetch of the word it left there. -/

namespace Sys2Proof.Machine

open Sys2Proof

/-- A store whose effective address is the incremented PC completes with its value there; the next step will fetch it. -/
theorem exec_store_at_pc {i : Instr} {u : State} {sr : Reg}
    (h : (∃ off, i = .st sr off ∧ pcRelative off u = u.pc) ∨
      (∃ off, i = .sti sr off ∧ (indirect off u).1 = u.pc) ∨
      (∃ base off, i = .str sr base off ∧ baseOffset base off u = u.pc)) :
    ∃ t, exec i u = .next t ∧ t.cell u.pc = u.getReg sr ∧ t.pc = u.pc ∧ t.run = u.run ∧ t.wait = u.wait := by
  rcases h with ⟨off, rfl, ha⟩ | ⟨off, rfl, ha⟩ | ⟨base, off, rfl, ha⟩ <;> rw [← ha]
  · exact ⟨_, exec_st sr off u, (memWrite_spec _ _ u).1, ha.symm, rfl, rfl⟩
  · exact ⟨_, exec_sti sr off u, (memWrite_spec _ _ _).1, by simp [ha], by simp, by simp⟩
  · exact ⟨_, exec_str sr base off u, (memWrite_spec _ _ u).1, ha.symm, rfl, rfl⟩

theorem fetch_ordinary {s : State} (h : s.pc ≠ Config.kbsrAddr) :
    fetch s = (s.cell s.pc, s.setPc (s.pc + 1#16)) := by
  rw [fetch, memRead_ordinary h]

theorem fetch_kbsr_getLsbD_low {s : State} (h : s.pc = Config.kbsrAddr) {i : Nat} (hi : i < 15) :
    (fetch s).1.getLsbD i = (s.cell s.pc).getLsbD i := by
  rw [fetch, h]
  exact memRead_kbsr_getLsbD_low s hi

/-- Settles O18: the store leaves the engine RUNNING before the cell it wrote, and the next fetch reads that cell. -/
theorem storeIsSeenByNextFetch : Obligations.StoreIsSeenByNextFetch := by
  intro s sr hrun hwait u h
  obtain ⟨t, hexec, hcell, hpc, ht_run, ht_wait⟩ := exec_store_at_pc h
  have hstored : t.cell t.pc = s.getReg sr := by
    rw [hpc, hcell]
    simp [u]
  have hnext : step t = exec (decode (fetch t).1) (fetch t).2 :=
    step_exec (by simp [ht_run, u, hrun]) (by simp [ht_wait, u, hwait])
  refine ⟨t, (step_exec hrun hwait).trans hexec, by simp [hpc, u], hstored, hnext, fun hne => ?_, fun hkbsr i hi => ?_⟩
  · rw [fetch_ordinary hne]
    exact ⟨hstored, rfl⟩
  · rw [fetch_kbsr_getLsbD_low hkbsr hi, hstored]

end Sys2Proof.Machine
end

section
/-! PROOFS. Sign extension (rule R86): a field of up to 16 bits keeps its two's-complement value. -/

namespace Sys2Proof.Machine

open Sys2Proof

theorem sext_toInt {n : Nat} (hn : n ≤ 16) (v : BitVec n) : (sext v).toInt = v.toInt :=
  BitVec.toInt_signExtend_of_le hn

theorem sext_toNat {n : Nat} (hn : n ≤ 16) (v : BitVec n) :
    (sext v).toNat = if v.getLsbD (n - 1) then v.toNat + (65536 - 2 ^ n) else v.toNat := by
  have hwide : (v.setWidth 16).toNat = v.toNat := BitVec.toNat_setWidth_of_le hn
  rw [sext, BitVec.toNat_signExtend, hwide, BitVec.msb_eq_getLsbD_last]
  split <;> rfl

/-- An offset in the range of its width comes back from its low bits (R97). -/
theorem sext_ofInt {n : Nat} (hpos : 0 < n) (hn : n ≤ 16) {x : Int} (hlo : -2 ^ (n - 1) ≤ x) (hhi : x < 2 ^ (n - 1)) :
    (sext (BitVec.ofInt n x)).toInt = x := by
  rw [sext_toInt hn, BitVec.toInt_ofInt_eq_self hpos hlo hhi]

/-- Settles O4: each of the four widths is at most 16. -/
theorem signExtensionIsExact : Obligations.SignExtensionIsExact := by
  intro n hn v
  have hle : n ≤ 16 := by omega
  exact ⟨sext_toNat hle v, sext_toInt hle v⟩

end Sys2Proof.Machine
end

section
/-! PROOFS. The fields of a format's word (rule R81), and the round trip of encoding and decoding (rule R97). -/

namespace Sys2Proof

open Sys2Proof.Machine

/-! ## A field by its bits -/

theorem extractLsb'_eq_of_bits {w : Word} {lo len : Nat} {v : BitVec len}
    (h : ∀ i < len, w.getLsbD (lo + i) = v.getLsbD i) : w.extractLsb' lo len = v :=
  BitVec.eq_of_getLsbD_eq fun i hi => by rw [BitVec.getLsbD_extractLsb', h i hi, decide_eq_true hi, Bool.true_and]

theorem regField_eq_of_bits {w : Word} {lo : Nat} {r : Reg} (h : ∀ i < 3, w.getLsbD (lo + i) = r.bits.getLsbD i) :
    Reg.ofBits (w.extractLsb' lo 3) = r := by
  rw [extractLsb'_eq_of_bits h, Reg.ofBits_bits]

/-! ## The fields of each format: at each bit of a field, the format's law is the field's own bit -/

theorem formatRRR_fields (op : Opcode) (dr sr1 sr2 : Reg) :
    Opcode.ofWord (formatRRR op dr sr1 sr2) = op ∧ fieldDR (formatRRR op dr sr1 sr2) = dr ∧
      fieldSR1 (formatRRR op dr sr1 sr2) = sr1 ∧ fieldSR2 (formatRRR op dr sr1 sr2) = sr2 ∧
      (formatRRR op dr sr1 sr2).getLsbD 5 = false := by
  refine ⟨Opcode.ofWord_eq fun i hi => ?_, regField_eq_of_bits fun i hi => ?_, regField_eq_of_bits fun i hi => ?_,
    regField_eq_of_bits fun i hi => ?_, formatRRR_bit ..⟩
  all_goals interval_cases i <;> exact formatRRR_bit op dr sr1 sr2 _

theorem formatRRI_fields (op : Opcode) (dr sr1 : Reg) (imm : BitVec 5) :
    Opcode.ofWord (formatRRI op dr sr1 imm) = op ∧ fieldDR (formatRRI op dr sr1 imm) = dr ∧
      fieldSR1 (formatRRI op dr sr1 imm) = sr1 ∧ fieldImm5 (formatRRI op dr sr1 imm) = imm ∧
      (formatRRI op dr sr1 imm).getLsbD 5 = true := by
  refine ⟨Opcode.ofWord_eq fun i hi => ?_, regField_eq_of_bits fun i hi => ?_, regField_eq_of_bits fun i hi => ?_,
    extractLsb'_eq_of_bits fun i hi => ?_, formatRRI_bit ..⟩
  all_goals interval_cases i <;> exact formatRRI_bit op dr sr1 imm _

theorem formatBO6_fields (op : Opcode) (r base : Reg) (off : BitVec 6) :
    Opcode.ofWord (formatBO6 op r base off) = op ∧ fieldDR (formatBO6 op r base off) = r ∧
      fieldSR1 (formatBO6 op r base off) = base ∧ fieldOff6 (formatBO6 op r base off) = off := by
  refine ⟨Opcode.ofWord_eq fun i hi => ?_, regField_eq_of_bits fun i hi => ?_, regField_eq_of_bits fun i hi => ?_,
    extractLsb'_eq_of_bits fun i hi => ?_⟩
  all_goals interval_cases i <;> exact formatBO6_bit op r base off _

theorem formatBase_fields (op : Opcode) (base : Reg) :
    Opcode.ofWord (formatBase op base) = op ∧ fieldSR1 (formatBase op base) = base ∧
      (formatBase op base).getLsbD 11 = false := by
  refine ⟨Opcode.ofWord_eq fun i hi => ?_, regField_eq_of_bits fun i hi => ?_, formatBase_bit ..⟩
  all_goals interval_cases i <;> exact formatBase_bit op base _

theorem formatPC9_fields (op : Opcode) (r : Reg) (off : BitVec 9) :
    Opcode.ofWord (formatPC9 op r off) = op ∧ fieldDR (formatPC9 op r off) = r ∧
      fieldOff9 (formatPC9 op r off) = off := by
  refine ⟨Opcode.ofWord_eq fun i hi => ?_, regField_eq_of_bits fun i hi => ?_, extractLsb'_eq_of_bits fun i hi => ?_⟩
  all_goals interval_cases i <;> exact formatPC9_bit op r off _

theorem formatBR_fields (op : Opcode) (n z p : Bool) (off : BitVec 9) :
    Opcode.ofWord (formatBR op n z p off) = op ∧ (formatBR op n z p off).getLsbD 11 = n ∧
      (formatBR op n z p off).getLsbD 10 = z ∧ (formatBR op n z p off).getLsbD 9 = p ∧
      fieldOff9 (formatBR op n z p off) = off := by
  refine ⟨Opcode.ofWord_eq fun i hi => ?_, (formatBR_bit ..).trans (bit_getLsbD_zero n),
    (formatBR_bit ..).trans (bit_getLsbD_zero z), (formatBR_bit ..).trans (bit_getLsbD_zero p),
    extractLsb'_eq_of_bits fun i hi => ?_⟩
  all_goals interval_cases i <;> exact formatBR_bit op n z p off _

theorem formatJSR_fields (op : Opcode) (off : BitVec 11) :
    Opcode.ofWord (formatJSR op off) = op ∧ (formatJSR op off).getLsbD 11 = true ∧
      fieldOff11 (formatJSR op off) = off := by
  refine ⟨Opcode.ofWord_eq fun i hi => ?_, formatJSR_bit .., extractLsb'_eq_of_bits fun i hi => ?_⟩
  all_goals interval_cases i <;> exact formatJSR_bit op off _

theorem formatTRAP_fields (op : Opcode) (vec : BitVec 8) :
    Opcode.ofWord (formatTRAP op vec) = op ∧ fieldVect8 (formatTRAP op vec) = vec := by
  refine ⟨Opcode.ofWord_eq fun i hi => ?_, extractLsb'_eq_of_bits fun i hi => ?_⟩
  all_goals interval_cases i <;> exact formatTRAP_bit op vec _

theorem formatNONE_fields (op : Opcode) (low : BitVec 12) :
    Opcode.ofWord (formatNONE op low) = op ∧ fieldLow12 (formatNONE op low) = low := by
  refine ⟨Opcode.ofWord_formatNONE op low, extractLsb'_eq_of_bits fun i hi => ?_⟩
  interval_cases i <;> exact formatNONE_bit op low _

/-! ## The round trip -/

theorem decodeTrap_unrecognised {vec : BitVec 8} (h : recognisedVector vec = false) : decodeTrap vec = .trap vec := by
  have hne : ∀ v, recognisedVector v = true → vec ≠ v := fun v hv e => by rw [e, hv] at h; cases h
  simp only [decodeTrap, hne 0x20#8 rfl, hne 0x21#8 rfl, hne 0x22#8 rfl, hne 0x23#8 rfl, hne 0x24#8 rfl, hne 0x25#8 rfl,
    if_false]

/-- Decoding the word of a well-formed instruction: each format gives back its own fields (R97). -/
theorem decode_encode {i : Instr} (hi : i.wellFormed = true) : decode (encode i) = i := by
  cases i with
  | br n z p off => simp only [encode, decode, formatBR_fields]
  | addReg _ _ _ | andReg _ _ _ => simp only [encode, decode, formatRRR_fields, Bool.false_eq_true, if_false]
  | addImm _ _ _ | andImm _ _ _ => simp only [encode, decode, formatRRI_fields, if_true]
  | ld _ _ | st _ _ | ldi _ _ | sti _ _ | lea _ _ => simp only [encode, decode, formatPC9_fields]
  | ldr _ _ _ | str _ _ _ | not _ _ => simp only [encode, decode, formatBO6_fields]
  | jsr off => simp only [encode, decode, formatJSR_fields, if_true]
  | jsrr base => simp only [encode, decode, formatBase_fields, Bool.false_eq_true, if_false]
  | rti _ | res _ => simp only [encode, decode, formatNONE_fields]
  | jmp base =>
    have hbase : base ≠ .r7 := of_decide_eq_true hi
    simp only [encode, decode, formatBase_fields, decodeJmp, hbase, if_false]
  | trap vec =>
    have hvec : recognisedVector vec = false := Bool.not_eq_true' _ ▸ hi
    simp only [encode, decode, formatTRAP_fields, decodeTrap_unrecognised hvec]
  | ret | getc | out | puts | inKey | putsp | halt => rfl

/-- Settles O1, by the round trip, the fields of the formats `JMP` and `TRAP`, and the sign extension of an offset. -/
theorem encodeThenDecodeRecoversInstruction : Obligations.EncodeThenDecodeRecoversInstruction := by
  refine ⟨fun i => decode_encode, fun base => ?_, fun vec => ?_, fun x hlo hhi => ?_, fun x hlo hhi => ?_,
    fun x hlo hhi => ?_, fun x hlo hhi => ?_⟩
  · obtain ⟨-, hbase, -⟩ := formatBase_fields .jmp base
    exact hbase
  · obtain ⟨-, hvec⟩ := formatTRAP_fields .trap vec
    exact hvec
  all_goals exact sext_ofInt (by decide) (by decide) (by omega) (by omega)

end Sys2Proof
end

section
/-! PROOFS. Masks over fields (rules R90, R98): words that agree under a mask agree in each field the mask covers. So a word
lies in a row of the opcode table by its opcode and one more field, and the bits that no field covers do not matter. -/

namespace Sys2Proof

open Sys2Proof.Machine

/-! ## Masks -/

/-- The mask of the bits `lo` to `lo + len - 1`. -/
def fieldMask (lo len : Nat) : Word := (BitVec.allOnes len).setWidth 16 <<< lo

theorem getLsbD_fieldMask (lo len i : Nat) :
    (fieldMask lo len).getLsbD i = decide (i < 16 ∧ lo ≤ i ∧ i < lo + len) := by
  simp only [fieldMask, BitVec.getLsbD_shiftLeft, BitVec.getLsbD_setWidth, BitVec.getLsbD_allOnes]
  grind

theorem and_fieldMask_eq_iff {v w : Word} {lo len : Nat} :
    v &&& fieldMask lo len = w &&& fieldMask lo len ↔ v.extractLsb' lo len = w.extractLsb' lo len := by
  constructor <;> intro h <;> refine BitVec.eq_of_getLsbD_eq fun i hi => ?_
  · have hbit := congrArg (·.getLsbD (lo + i)) h
    simp only [BitVec.getLsbD_and, getLsbD_fieldMask] at hbit
    grind
  · have hbit := congrArg (·.getLsbD (i - lo)) h
    simp only [BitVec.getLsbD_and, getLsbD_fieldMask, BitVec.getLsbD_extractLsb'] at hbit ⊢
    grind

theorem and_or_eq_iff {v w m n : Word} : v &&& (m ||| n) = w &&& (m ||| n) ↔ v &&& m = w &&& m ∧ v &&& n = w &&& n := by
  constructor
  · intro h
    have absorb : ∀ u k l : Word, u &&& (k ||| l) &&& k = u &&& k := fun u k l => by
      ext i hi
      simp only [BitVec.getElem_and, BitVec.getElem_or]
      grind
    exact ⟨by rw [← absorb v m n, h, absorb], by rw [← absorb v n m, BitVec.or_comm, h, BitVec.or_comm m, absorb]⟩
  · rintro ⟨hm, hn⟩
    rw [BitVec.and_or_distrib_left, BitVec.and_or_distrib_left, hm, hn]

/-! ## Fields that agree -/

theorem Opcode.bits_injective : Function.Injective Opcode.bits := fun a b h => by
  rw [← Opcode.ofWord_formatNONE a 0#12, ← Opcode.ofWord_formatNONE b 0#12, formatNONE, formatNONE, h]

theorem Opcode.ofWord_congr {v w : Word} (h : v.extractLsb' 12 4 = w.extractLsb' 12 4) :
    Opcode.ofWord v = Opcode.ofWord w :=
  Opcode.bits_injective (by rw [Opcode.bits_ofWord, Opcode.bits_ofWord, h])

theorem extractLsb'_one_eq_iff {v w : Word} {i : Nat} :
    v.extractLsb' i 1 = w.extractLsb' i 1 ↔ v.getLsbD i = w.getLsbD i := by
  have hbit : ∀ u : Word, u.extractLsb' i 1 = bit (u.getLsbD i) := fun u =>
    extractLsb'_eq_of_bits fun j hj => by rw [Nat.lt_one_iff.mp hj]; exact (bit_getLsbD_zero _).symm
  rw [hbit, hbit]
  exact ⟨fun h => by simpa only [bit_getLsbD_zero] using congrArg (·.getLsbD 0) h, congrArg bit⟩

/-! ## The rows of the opcode table (R98) -/

theorem rowMatch_and_rowMask (i : Instr) : rowMatch i &&& rowMask i = rowMatch i := by
  cases i <;> simp only [rowMatch, rowMask] <;> rfl

theorem Opcode.ofWord_rowMatch (i : Instr) : Opcode.ofWord (rowMatch i) = i.opcode := by
  cases i <;> simp only [rowMatch] <;> rfl

section Row

variable {w : Word} {i : Instr}

/-- A row whose mask covers the opcode and one more field holds the words of its opcode and of its value in that field. -/
theorem inRow_iff {lo len : Nat} (hmask : rowMask i = fieldMask 12 4 ||| fieldMask lo len) :
    InRow w i ↔ Opcode.ofWord w = i.opcode ∧ w.extractLsb' lo len = (rowMatch i).extractLsb' lo len := by
  have hop : w.extractLsb' 12 4 = (rowMatch i).extractLsb' 12 4 ↔ Opcode.ofWord w = i.opcode := by
    rw [← Opcode.bits_ofWord, ← Opcode.bits_ofWord, Opcode.ofWord_rowMatch, Opcode.bits_injective.eq_iff]
  have hrow : InRow w i ↔ w &&& rowMask i = rowMatch i &&& rowMask i := by
    rw [InRow, rowMatch_and_rowMask]
  rw [hrow, hmask, and_or_eq_iff, and_fieldMask_eq_iff, and_fieldMask_eq_iff, hop]

/-- The further field is empty where a row holds all the words of its opcode. -/
theorem inRow_iff_opcode (hmask : rowMask i = fieldMask 12 4 ||| fieldMask 0 0) :
    InRow w i ↔ Opcode.ofWord w = i.opcode :=
  (inRow_iff hmask).trans (and_iff_left (Subsingleton.elim _ _))

/-- It is one bit for the two forms of ADD, AND and JSR (R84). -/
theorem inRow_iff_bit {k : Nat} (hmask : rowMask i = fieldMask 12 4 ||| fieldMask k 1) :
    InRow w i ↔ Opcode.ofWord w = i.opcode ∧ w.getLsbD k = (rowMatch i).getLsbD k := by
  rw [inRow_iff hmask, extractLsb'_one_eq_iff]

end Row

theorem inRow_decode (w : Word) : InRow w (decode w) := by
  cases h : Opcode.ofWord w
  case add | and =>
    simp only [decode, h]
    split
    all_goals
      next hbit => exact (inRow_iff_bit (k := 5) rfl).mpr ⟨h, by simp only [hbit, rowMatch]; rfl⟩
  case jsr =>
    simp only [decode, h]
    split
    all_goals
      next hbit => exact (inRow_iff_bit (k := 11) rfl).mpr ⟨h, by simp only [hbit, rowMatch]; rfl⟩
  case jmp =>
    simp only [decode, h, decodeJmp]
    split
    next hbase => exact (inRow_iff (lo := 6) (len := 3) rfl).mpr ⟨h, (Reg.bits_ofBits _).symm.trans (congrArg Reg.bits hbase)⟩
    next => exact (inRow_iff_opcode rfl).mpr h
  case trap =>
    simp only [decode, h, decodeTrap]
    split_ifs with hvec hvec hvec hvec hvec hvec
    case neg => exact (inRow_iff_opcode rfl).mpr h
    all_goals exact (inRow_iff (lo := 0) (len := 8) rfl).mpr ⟨h, hvec⟩
  all_goals
    simp only [decode, h]
    exact (inRow_iff_opcode rfl).mpr h

/-- A row that a word lies in is that of its decoding or the base row that this one refines. -/
theorem rowMatch_decode_of_inRow {w : Word} {i : Instr} (h : InRow w i) :
    rowMatch (decode w) = rowMatch i ∨ (rowMatch i = 0xC000#16 ∧ decode w = .ret) ∨
      (rowMatch i = 0xF000#16 ∧
        decode w ∈ [Instr.getc, Instr.out, Instr.puts, Instr.inKey, Instr.putsp, Instr.halt]) := by
  cases i
  case jmp base =>
    have hop := (inRow_iff_opcode rfl).mp h
    simp only [decode, hop, Instr.opcode, decodeJmp]
    split
    · exact .inr (.inl ⟨rfl, rfl⟩)
    · exact .inl rfl
  case trap vec =>
    have hop := (inRow_iff_opcode rfl).mp h
    simp only [decode, hop, Instr.opcode, decodeTrap]
    split_ifs
    case neg => exact .inl rfl
    all_goals exact .inr (.inr ⟨rfl, by decide⟩)
  case addReg | addImm | andReg | andImm =>
    obtain ⟨hop, hbit⟩ := (inRow_iff_bit (k := 5) rfl).mp h
    left
    simp only [decode, hop, Instr.opcode, hbit, rowMatch]
    rfl
  case jsr | jsrr =>
    obtain ⟨hop, hbit⟩ := (inRow_iff_bit (k := 11) rfl).mp h
    left
    simp only [decode, hop, Instr.opcode, hbit, rowMatch]
    rfl
  case ret =>
    obtain ⟨hop, hsel⟩ := (inRow_iff (lo := 6) (len := 3) rfl).mp h
    have hbase : fieldSR1 w = .r7 := congrArg Reg.ofBits hsel
    left
    simp only [decode, hop, Instr.opcode, hbase]
    rfl
  case getc | out | puts | inKey | putsp | halt =>
    obtain ⟨hop, hvec⟩ := (inRow_iff (lo := 0) (len := 8) rfl).mp h
    left
    simp only [decode, hop, Instr.opcode, fieldVect8, hvec]
    rfl
  all_goals
    have hop := (inRow_iff_opcode rfl).mp h
    left
    simp only [decode, hop, Instr.opcode]
    rfl

/-- Settles O2, by the opcode and the field that select a row. -/
theorem tableRowsPartitionWords : Obligations.TableRowsPartitionWords :=
  fun w => ⟨decode_wellFormed w, inRow_decode w, fun _ => rowMatch_decode_of_inRow⟩

/-! ## The ignored bits (R90): each mask is the union of the fields that decoding reads -/

section Ignored

variable {v w : Word}

theorem decode_congr_register (hop : Opcode.ofWord v = .add ∨ Opcode.ofWord v = .and) (h5 : v.getLsbD 5 = false)
    (h : v &&& 0xFFE7#16 = w &&& 0xFFE7#16) : decode v = decode w := by
  rw [show 0xFFE7#16 = fieldMask 12 4 ||| fieldMask 9 3 ||| fieldMask 6 3 ||| fieldMask 5 1 ||| fieldMask 0 3 from rfl] at h
  simp only [and_or_eq_iff, and_fieldMask_eq_iff, extractLsb'_one_eq_iff] at h
  obtain ⟨⟨⟨⟨hopcode, hdr⟩, hsr1⟩, hform⟩, hsr2⟩ := h
  rcases hop with hop | hop <;>
    simp only [decode, ← Opcode.ofWord_congr hopcode, hop, ← hform, h5, fieldDR, hdr, fieldSR1, hsr1,
      fieldSR2, hsr2, Bool.false_eq_true, if_false]

theorem decode_congr_not (hop : Opcode.ofWord v = .not) (h : v &&& 0xFFC0#16 = w &&& 0xFFC0#16) : decode v = decode w := by
  rw [show 0xFFC0#16 = fieldMask 12 4 ||| fieldMask 9 3 ||| fieldMask 6 3 from rfl] at h
  simp only [and_or_eq_iff, and_fieldMask_eq_iff] at h
  obtain ⟨⟨hopcode, hdr⟩, hsr1⟩ := h
  simp only [decode, ← Opcode.ofWord_congr hopcode, hop, fieldDR, hdr, fieldSR1, hsr1]

theorem decode_congr_jmp (hop : Opcode.ofWord v = .jmp) (h : v &&& 0xF1C0#16 = w &&& 0xF1C0#16) : decode v = decode w := by
  rw [show 0xF1C0#16 = fieldMask 12 4 ||| fieldMask 6 3 from rfl] at h
  simp only [and_or_eq_iff, and_fieldMask_eq_iff] at h
  obtain ⟨hopcode, hbase⟩ := h
  simp only [decode, ← Opcode.ofWord_congr hopcode, hop, fieldSR1, hbase]

theorem decode_congr_jsrr (hop : Opcode.ofWord v = .jsr) (h11 : v.getLsbD 11 = false)
    (h : v &&& 0xF9C0#16 = w &&& 0xF9C0#16) : decode v = decode w := by
  rw [show 0xF9C0#16 = fieldMask 12 4 ||| fieldMask 11 1 ||| fieldMask 6 3 from rfl] at h
  simp only [and_or_eq_iff, and_fieldMask_eq_iff, extractLsb'_one_eq_iff] at h
  obtain ⟨⟨hopcode, hform⟩, hbase⟩ := h
  simp only [decode, ← Opcode.ofWord_congr hopcode, hop, ← hform, h11, fieldSR1, hbase,
    Bool.false_eq_true, if_false]

theorem decode_congr_trap (hop : Opcode.ofWord v = .trap) (h : v &&& 0xF0FF#16 = w &&& 0xF0FF#16) :
    decode v = decode w := by
  rw [show 0xF0FF#16 = fieldMask 12 4 ||| fieldMask 0 8 from rfl] at h
  simp only [and_or_eq_iff, and_fieldMask_eq_iff] at h
  obtain ⟨hopcode, hvec⟩ := h
  simp only [decode, ← Opcode.ofWord_congr hopcode, hop, fieldVect8, hvec]

end Ignored

/-- Settles O3, by the fields that each mask covers. -/
theorem ignoredBitsDoNotMatter : Obligations.IgnoredBitsDoNotMatter :=
  fun _ _ => ⟨decode_congr_register, decode_congr_not, decode_congr_jmp, decode_congr_jsrr, decode_congr_trap⟩

end Sys2Proof
end

section
/-! PROOFS. Words written out: those of the spec's vectors (rule R88), and the no-operations below 0x0200 (rule R93). -/

namespace Sys2Proof.Machine

open Sys2Proof

/-- Settles O5, by decoding each word. -/
theorem workedWordsDecode : Obligations.WorkedWordsDecode :=
  ⟨rfl, rfl, rfl, rfl, rfl, rfl, rfl, rfl, rfl, rfl, rfl, rfl, rfl, rfl, rfl, rfl⟩

/-- Bits 15:9 of the word are 0: it is a BR with no condition bit. -/
theorem decode_of_lt {w : Word} (h : w.toNat < 0x200) : decode w = .br false false false (fieldOff9 w) := by
  have hbit : ∀ i, 9 ≤ i → w.getLsbD i = false := fun i hi =>
    Nat.testBit_lt_two_pow (h.trans_le (Nat.pow_le_pow_right (n := 2) (by decide) hi))
  have hop : Opcode.ofWord w = .br := Opcode.ofWord_eq fun i hi => by
    rw [hbit _ (by omega)]
    exact BitVec.getLsbD_zero.symm
  simp only [decode, hop, hbit 11 (by decide), hbit 10 (by decide), hbit 9 (by decide)]

theorem branchTaken_none (c : Cond) : branchTaken false false false c = false := by cases c <;> rfl

/-- Settles O23: a BR with no condition bit is not taken. -/
theorem nopWords : Obligations.NopWords := by
  intro w h s
  rw [decode_of_lt h, exec_br, branchTaken_none]
  rfl

end Sys2Proof.Machine
end

section
/-! PROOFS. The end of a string (rules R164, R166, U6): the bound of the string loop loses no string that ends. Every pass
over the cells polls the keyboard once, and each poll uses up a batch of arrivals or a key. When none is left the next poll
clears bit 15 of `KBSR`, after which no read changes a cell, and one more pass sees every cell there is. -/

namespace Sys2Proof.Machine

open Sys2Proof

/-- The next address is one nearer to `b`. -/
theorem toNat_sub_succ {a b : Word} (h : a ≠ b) : (b - (a + 1#16)).toNat + 1 = (b - a).toNat := by
  bv_omega

/-! ## When no read changes a cell any more -/

/-- Nothing is to come from the keyboard and bit 15 of `KBSR` is clear. -/
structure Quiet (s : State) : Prop where
  keys : s.keys = []
  arrivals : s.arrivals = []
  kbsr : s.cell Config.kbsrAddr &&& 0x7FFF#16 = s.cell Config.kbsrAddr

namespace Quiet

variable {cell : Word → CellOutput} {s : State}

theorem sampleKeyboard_keys (hs : Quiet s) : s.sampleKeyboard.keys = [] := by
  rw [sampleKeyboard_nil hs.arrivals, hs.keys]

theorem readEffect_cell (hs : Quiet s) (a b : Word) : (readEffect a s).cell b = s.cell b := by
  by_cases ha : a = Config.kbsrAddr
  · subst ha
    rw [readEffect_kbsr]
    by_cases hb : b = Config.kbsrAddr
    · rw [hb, pollKeyboard_cell_kbsr_of_no_key hs.sampleKeyboard_keys, hs.kbsr]
    · simp [pollKeyboard_nil hs.sampleKeyboard_keys, State.cell_eq, hb]
  · rw [readEffect_ordinary ha]

theorem readEffect_keyboard (hs : Quiet s) (a : Word) :
    (readEffect a s).keys = [] ∧ (readEffect a s).arrivals = [] := by
  by_cases ha : a = Config.kbsrAddr
  · rw [ha, readEffect_kbsr, pollKeyboard_nil hs.sampleKeyboard_keys, sampleKeyboard_nil hs.arrivals]
    exact ⟨rfl, hs.arrivals⟩
  · rw [readEffect_ordinary ha]
    exact ⟨hs.keys, hs.arrivals⟩

/-- One cell of the loop leaves the machine quiet. -/
theorem afterCell (hs : Quiet s) (a : Word) (bs : List Byte) : Quiet ((readEffect a s).consoleWriteAll bs) where
  keys := (hs.readEffect_keyboard a).1
  arrivals := (hs.readEffect_keyboard a).2
  kbsr := by simpa only [State.consoleWriteAll_cell, hs.readEffect_cell] using hs.kbsr

/-- A string that ends has a cell that ends it, and that cell is there from the start. -/
theorem exists_last (hs : Quiet s) {a : Word} {u : State} (h : StringRun cell a s u) :
    ∃ b, (cell (s.cell b)).last = true := by
  induction h with
  | stop a s hlast => exact ⟨a, by rwa [memRead_fst, hs.readEffect_cell] at hlast⟩
  | more a s t _ _ ih =>
    obtain ⟨b, hb⟩ := ih (hs.afterCell a _)
    exact ⟨b, by rwa [State.consoleWriteAll_cell, memRead_snd, hs.readEffect_cell] at hb⟩

/-- The loop comes to a cell that ends the string within its distance. -/
theorem stringLoop_isSome_of_last (hs : Quiet s) {a b : Word} (hb : (cell (s.cell b)).last = true) {n : Nat}
    (hn : (b - a).toNat < n) : (stringLoop cell n a s).isSome := by
  induction n generalizing a s with
  | zero => exact absurd hn (Nat.not_lt_zero _)
  | succ n ih =>
    cases hlast : (cell (memRead a s).1).last with
    | true => rw [stringLoop_last n hlast]; rfl
    | false =>
      have hne : a ≠ b := by
        rintro rfl
        rw [memRead_fst, hs.readEffect_cell, hb] at hlast
        cases hlast
      have hnear := toNat_sub_succ hne
      rw [stringLoop_more n hlast]
      exact ih (hs.afterCell a _) (by rwa [State.consoleWriteAll_cell, hs.readEffect_cell]) (by omega)

/-- One pass is enough. -/
theorem stringLoop_isSome (hs : Quiet s) {a : Word} {u : State} (h : StringRun cell a s u) {n : Nat}
    (hn : 65536 ≤ n) : (stringLoop cell n a s).isSome := by
  obtain ⟨b, hb⟩ := hs.exists_last h
  exact hs.stringLoop_isSome_of_last hb ((b - a).isLt.trans_le hn)

end Quiet

/-! ## The polls until then -/

/-- The batches and the keys that polls have to use up. -/
def pollsLeft (s : State) : Nat := s.arrivals.length + s.keys.length + s.arrivals.flatten.length

theorem stringFuel_eq (s : State) : stringFuel s = 65536 * (pollsLeft s + 3) := rfl

/-- A look at the keyboard uses up a batch, if there is one. -/
theorem sampleKeyboard_pollsLeft (s : State) :
    (s.arrivals = [] ∧ s.sampleKeyboard = s) ∨ pollsLeft s.sampleKeyboard < pollsLeft s := by
  cases h : s.arrivals with
  | nil => exact .inl ⟨rfl, sampleKeyboard_nil h⟩
  | cons b bs =>
    right
    simp only [pollsLeft, sampleKeyboard_cons h, h, List.length_append, List.length_cons, List.flatten_cons]
    omega

/-- A poll uses up a batch or a key, or there is none and the machine is quiet after it. -/
theorem pollKeyboard_progress (s : State) : Quiet (pollKeyboard s) ∨ pollsLeft (pollKeyboard s) < pollsLeft s := by
  rcases keyRead_cases s with ⟨hk, -⟩ | ⟨k, ks, hk, -⟩
  · have hleft : pollsLeft (pollKeyboard s) = pollsLeft s.sampleKeyboard := by
      rw [pollKeyboard_nil hk, pollsLeft, pollsLeft, hk]
    rcases sampleKeyboard_pollsLeft s with ⟨ha, hsample⟩ | hlt
    · left
      refine ⟨by rw [pollKeyboard_nil hk], by rw [pollKeyboard_nil hk, hsample, ha], ?_⟩
      rw [pollKeyboard_cell_kbsr_of_no_key hk, BitVec.and_assoc, BitVec.and_self]
    · exact .inr (hleft ▸ hlt)
  · have hleft : pollsLeft (pollKeyboard s) + 1 = pollsLeft s.sampleKeyboard := by
      simp only [pollKeyboard_cons hk, pollsLeft, hk, List.length_cons]
      omega
    right
    rcases sampleKeyboard_pollsLeft s with ⟨-, hsample⟩ | hlt
    · rw [hsample] at hleft
      omega
    · omega

/-! ## The bound -/

/-- A string that ends ends within a pass for each poll that is left, the way to the next poll, and one pass after the last. -/
theorem StringRun.stringLoop_isSome_of_lt {cell : Word → CellOutput} {a : Word} {s u : State} (h : StringRun cell a s u)
    {n : Nat} (hn : 65536 * (pollsLeft s + 1) + (Config.kbsrAddr - a).toNat < n) : (stringLoop cell n a s).isSome := by
  induction h generalizing n with
  | stop a s hlast =>
    obtain ⟨n, rfl⟩ := Nat.exists_eq_add_one_of_ne_zero (Nat.ne_zero_of_lt hn)
    rw [stringLoop_last n hlast]
    rfl
  | more a s t hlast rest ih =>
    obtain ⟨n, rfl⟩ := Nat.exists_eq_add_one_of_ne_zero (Nat.ne_zero_of_lt hn)
    rw [stringLoop_more n hlast]
    by_cases ha : a = Config.kbsrAddr
    · subst ha
      have hdist : (Config.kbsrAddr - (Config.kbsrAddr + 1#16)).toNat = 65535 := by decide
      have hpoll : (memRead Config.kbsrAddr s).2 = pollKeyboard s := readEffect_kbsr s
      rw [hpoll] at rest ih ⊢
      rcases pollKeyboard_progress s with hquiet | hlt
      · have hnext : Quiet ((pollKeyboard s).consoleWriteAll (cell (memRead Config.kbsrAddr s).1).bytes) :=
          ⟨hquiet.keys, hquiet.arrivals, hquiet.kbsr⟩
        exact hnext.stringLoop_isSome rest (by omega)
      · have hleft : pollsLeft ((pollKeyboard s).consoleWriteAll (cell (memRead Config.kbsrAddr s).1).bytes) =
            pollsLeft (pollKeyboard s) := rfl
        exact ih (by omega)
    · have hnear := toNat_sub_succ ha
      have hleft : pollsLeft ((memRead a s).2.consoleWriteAll (cell (memRead a s).1).bytes) = pollsLeft s := by
        rw [memRead_snd, readEffect_ordinary ha]
        rfl
      exact ih (by omega)

/-- The bound of the model loses no string that ends. -/
theorem StringRun.stringLoop_isSome {cell : Word → CellOutput} {a : Word} {s u : State} (h : StringRun cell a s u) :
    (stringLoop cell (stringFuel s) a s).isSome :=
  h.stringLoop_isSome_of_lt (by
    have hdist := (Config.kbsrAddr - a).isLt
    rw [stringFuel_eq]
    omega)

/-- A string routine stops only on a string with no end. -/
theorem not_exists_stringRun_of_fault {cell : Word → CellOutput} {s : State} {f : Fault}
    (h : printString cell s = .fault f) : ¬∃ u, StringRun cell (s.getReg .r0) s u := by
  rintro ⟨u, hu⟩
  obtain ⟨t, ht⟩ := Option.isSome_iff_exists.mp hu.stringLoop_isSome
  rw [printString, ht] at h
  cases h

end Sys2Proof.Machine
end

section
/-! PROOFS. The outcomes of an instruction and of a step (rules R89, R116, R194): only a string routine may stop, and none
refuses. -/

namespace Sys2Proof.Machine

open Sys2Proof

/-- Every instruction has a next state, but for the two that are a string routine. -/
theorem exec_cases (i : Instr) (s : State) :
    (∃ t, exec i s = .next t) ∨
    ((i = .puts ∨ i = .trap 0x22#8) ∧ exec i s = printString putsCell (saveReturn s)) ∨
    ((i = .putsp ∨ i = .trap 0x24#8) ∧ exec i s = printString (putspCell s.params.putspRule) (saveReturn s)) := by
  cases i with
  | puts => exact .inr (.inl ⟨.inl rfl, exec_puts s⟩)
  | putsp => exact .inr (.inr ⟨.inl rfl, exec_putsp s⟩)
  | trap vec =>
    rcases execTrap_cases vec s with ⟨-, e⟩ | ⟨-, e⟩ | ⟨rfl, e⟩ | ⟨-, e⟩ | ⟨rfl, e⟩ | ⟨-, e⟩ | ⟨-, e⟩
    case inr.inr.inl => exact .inr (.inl ⟨.inr rfl, e.trans (exec_puts s)⟩)
    case inr.inr.inr.inr.inl => exact .inr (.inr ⟨.inr rfl, e.trans (exec_putsp s)⟩)
    all_goals exact .inl ⟨_, e⟩
  | _ => exact .inl ⟨_, rfl⟩

theorem printString_ne_refused (cell : Word → CellOutput) (s : State) (r : Refusal) : printString cell s ≠ .refused r := by
  rcases printString_cases cell s with ⟨t, -, h⟩ | h <;> rw [h] <;> simp

theorem exec_ne_refused (i : Instr) (s : State) (r : Refusal) : exec i s ≠ .refused r := by
  rcases exec_cases i s with ⟨t, h⟩ | ⟨-, h⟩ | ⟨-, h⟩ <;> rw [h]
  · simp
  · exact printString_ne_refused _ _ r
  · exact printString_ne_refused _ _ r

theorem step_ne_refused (s : State) (r : Refusal) : step s ≠ .refused r := by
  rcases step_cases s with ⟨-, h⟩ | ⟨-, w, -, h⟩ | ⟨-, -, h⟩ <;> rw [h]
  · simp
  · simp
  · exact exec_ne_refused _ _ r

/-- An instruction that stops is a string routine on a string with no end. -/
theorem exec_fault {i : Instr} {s : State} {f : Fault} (h : exec i s = .fault f) :
    ((i = .puts ∨ i = .trap 0x22#8) ∧ ¬∃ u, StringRun putsCell (s.getReg .r0) (saveReturn s) u) ∨
      ((i = .putsp ∨ i = .trap 0x24#8) ∧
        ¬∃ u, StringRun (putspCell s.params.putspRule) (s.getReg .r0) (saveReturn s) u) := by
  have hr0 : (saveReturn s).getReg .r0 = s.getReg .r0 := by simp
  rcases exec_cases i s with ⟨t, e⟩ | ⟨hi, e⟩ | ⟨hi, e⟩ <;> rw [e] at h
  · cases h
  · exact .inl ⟨hi, hr0 ▸ not_exists_stringRun_of_fault h⟩
  · exact .inr ⟨hi, hr0 ▸ not_exists_stringRun_of_fault h⟩

/-- A step that stops has fetched PUTS or PUTSP: the decoder gives no TRAP with their vectors. -/
theorem step_fault {s : State} {f : Fault} (h : step s = .fault f) :
    s.run = true ∧ s.wait = none ∧
      ((decode (fetch s).1 = .puts ∧ ¬∃ u, StringRun putsCell (s.getReg .r0) (saveReturn (fetch s).2) u) ∨
        (decode (fetch s).1 = .putsp ∧
          ¬∃ u, StringRun (putspCell s.params.putspRule) (s.getReg .r0) (saveReturn (fetch s).2) u)) := by
  have decoded : ∀ {vec}, recognisedVector vec = true → decode (fetch s).1 ≠ .trap vec := fun hv e => by
    have hwf := decode_wellFormed (fetch s).1
    rw [e, Instr.wellFormed, hv] at hwf
    cases hwf
  have hr0 : (fetch s).2.getReg .r0 = s.getReg .r0 := by simp
  rcases step_cases s with ⟨-, e⟩ | ⟨-, w, -, e⟩ | ⟨hrun, hwait, e⟩ <;> rw [e] at h
  · cases h
  · cases h
  · refine ⟨hrun, hwait, ?_⟩
    have hstop := exec_fault h
    rw [hr0, fetch_params] at hstop
    exact hstop.imp (And.imp_left fun hi => hi.resolve_right (decoded rfl))
      (And.imp_left fun hi => hi.resolve_right (decoded rfl))

/-- Settles O10: an instruction stops only where the bounded loop does, and the bound loses no string that ends. -/
theorem stepNeverRefuses : Obligations.StepNeverRefuses :=
  ⟨step_ne_refused, fun _ _ => step_fault, fun _ _ _ => exec_fault⟩

end Sys2Proof.Machine
end

section
/-! PROOFS. The instruction cycle (rules R110 to R113): the fetch at an ordinary PC and at `KBSR`, and the step that
executes the word it yields. -/

namespace Sys2Proof.Machine

open Sys2Proof

/-- Settles O7: the step of an engine that is not waiting, and what its fetch is off `KBSR`. -/
theorem stepRunsDecodedInstruction : Obligations.StepRunsDecodedInstruction := by
  intro s hrun hwait
  have hstep : step s = exec (decode (fetch s).1) (fetch s).2 := step_exec hrun hwait
  refine ⟨hstep, fun i hpc hi => ?_⟩
  rw [hstep, fetch_ordinary hpc, hi]

theorem fetch_kbsr {s : State} (h : s.pc = Config.kbsrAddr) :
    fetch s = ((pollKeyboard s).cell Config.kbsrAddr, (pollKeyboard s).setPc (s.pc + 1#16)) := by
  rw [fetch, memRead, h, readEffect_kbsr]

/-- Settles O8: off `KBSR` the fetch is the cell and the increment; at `KBSR` its device cells and its queue are those of
the poll, which the increment leaves. -/
theorem fetchReadsAndIncrements : Obligations.FetchReadsAndIncrements := by
  intro s
  refine ⟨BitVec.toNat_add s.pc 1#16, fun hpc => ?_, fun hpc k ks hkey => ?_, fun hpc hnone => ?_⟩
  · rw [fetch_ordinary hpc]
    exact ⟨rfl, rfl⟩
  · rw [fetch_kbsr hpc, State.setPc_cell, State.setPc_keys]
    exact ⟨pollKeyboard_cell_kbsr_of_key hkey, pollKeyboard_cell_kbdr_of_key hkey, by rw [pollKeyboard_cons hkey]⟩
  · rw [fetch_kbsr hpc, State.setPc_cell, State.setPc_keys]
    exact ⟨pollKeyboard_cell_kbsr_of_no_key hnone, pollKeyboard_cell_kbdr_of_no_key hnone,
      by rw [pollKeyboard_nil hnone]⟩

end Sys2Proof.Machine
end

section
/-! PROOFS. A HALTED machine (rules R28, R116) and a waiting one (rules R118, R207): what their steps change. -/

namespace Sys2Proof.Machine

open Sys2Proof

/-! ## HALTED -/

theorem step_halted {s : State} (h : s.run = false) : step s = .next s := by
  simp [step, h]

/-- A run goes on from the next state its first step answers. -/
theorem run_succ_of_next {M : Host.Core} {s t : M.State} (h : M.step s = .next t) (k : Nat) :
    M.run (k + 1) s = M.run k t := by
  rw [Host.Core.run, h]

/-- Settles O9, by induction on the number of steps. -/
theorem haltedIsTerminal : Obligations.HaltedIsTerminal := by
  intro k s h
  induction k with
  | zero => rfl
  | succ k ih => exact (run_succ_of_next (M := core) (step_halted h) k).trans ih

/-! ## Waiting -/

theorem step_waiting {s : State} {w : KeyWait} (hrun : s.run = true) (hwait : s.wait = some w) :
    step s = .next (awaitKey w s) := by
  simp [step, hrun, hwait]

@[simp] theorem sampleKeyboard_wait (s : State) : s.sampleKeyboard.wait = s.wait := by rw [sampleKeyboard_eq]

/-- A look at the keyboard from inside the wait that finds no key changes only what the environment did. -/
theorem awaitKey_of_no_key {s : State} {w : KeyWait} (hwait : s.wait = some w) (h : s.sampleKeyboard.keys = []) :
    awaitKey w s = s.sampleKeyboard := by
  rw [awaitKey_nil w h, ← hwait, ← sampleKeyboard_wait s]

section Key

variable {s : State} {k : Byte} {ks : List Byte}

/-- Both routines store the key, lift the wait and take that one key (R162, R165). -/
theorem awaitKey_of_key (w : KeyWait) (h : s.sampleKeyboard.keys = k :: ks) :
    (awaitKey w s).getReg .r0 = zext k ∧ (awaitKey w s).wait = none ∧ (awaitKey w s).keys = ks ∧
      (awaitKey w s).arrivals = s.sampleKeyboard.arrivals := by
  rw [awaitKey_cons w h]
  cases w <;> exact ⟨rfl, rfl, rfl, rfl⟩

/-- GETC does not echo (R162). -/
theorem awaitKey_getc_console (h : s.sampleKeyboard.keys = k :: ks) :
    (awaitKey .getc s).outStream = s.outStream ∧ (awaitKey .getc s).flushed = s.flushed := by
  rw [awaitKey_cons _ h, sampleKeyboard_eq s]
  exact ⟨rfl, rfl⟩

/-- IN echoes the key and flushes (R165). -/
theorem awaitKey_inKey_console (h : s.sampleKeyboard.keys = k :: ks) :
    (awaitKey .inKey s).outStream = s.outStream ++ [k] ∧
      (awaitKey .inKey s).flushed = (awaitKey .inKey s).outStream.length := by
  rw [awaitKey_cons _ h, sampleKeyboard_eq s]
  exact ⟨rfl, rfl⟩

end Key

/-- Settles O45: the step is a look at the keyboard, which finds no key or takes the first one. -/
theorem waitEndsOnlyWithKey : Obligations.WaitEndsOnlyWithKey := by
  intro s w hrun hwait
  have hstep : step s = .next (awaitKey w s) := step_waiting hrun hwait
  refine ⟨fun hnone => ?_, fun k ks hkey => ?_⟩
  · rw [hstep, awaitKey_of_no_key hwait hnone]
    exact ⟨rfl, (sampleKeyboard_wait s).trans hwait, fun harr => by rw [sampleKeyboard_nil harr]⟩
  · obtain ⟨hr0, hlifted, hkeys, harrivals⟩ := awaitKey_of_key w hkey
    refine ⟨awaitKey w s, hstep, by rw [hr0, zext_toNat], fun r hr => ?_, hlifted, hkeys, harrivals, awaitKey_pc w s,
      awaitKey_cond w s, awaitKey_cell w s, (awaitKey_run w s).trans hrun, awaitKey_fault w s, awaitKey_params w s,
      awaitKey_terminalRestores w s, ?_, ?_⟩
    · exact awaitKey_getReg w s (List.ne_of_not_mem_cons hr)
    · rintro rfl
      exact awaitKey_getc_console hkey
    · rintro rfl
      exact awaitKey_inKey_console hkey

end Sys2Proof.Machine
end

section
/-! PROOFS. The flags (rules R27, R114, R168): the class `setcc` gives a word, and the instructions that call it. -/

namespace Sys2Proof.Machine

open Sys2Proof

/-- Settles O11: the class by value, the frame of COND, and that a look at the keyboard leaves it. -/
theorem flagUpdate : Obligations.FlagUpdate := by
  refine ⟨fun v s => ⟨(setcc_cond v s).trans (condOf_ranges v), rfl⟩, fun i s t h => ?_, awaitKey_cond⟩
  cases hf : flagDest i with
  | none => exact exec_cond hf h
  | some dr => exact (exec_cond_of_flagDest hf h).trans (condOf_eq_signClass _)

end Sys2Proof.Machine
end

section
/-! PROOFS. What ADD, AND and NOT words decode to (rules R84, R88): the form by bit 5, the registers by their fields. -/

namespace Sys2Proof

/-- The opcode of a word whose bits 15:12 are an opcode's (R88). -/
theorem Opcode.ofWord_of_extractLsb' {w : Word} {op : Opcode} (h : w.extractLsb' 12 4 = op.bits) : Opcode.ofWord w = op :=
  Opcode.bits_injective ((Opcode.bits_ofWord w).trans h)

section AluWords

variable {w : Word}

theorem decode_addReg (hop : Opcode.ofWord w = .add) (h5 : w.getLsbD 5 = false) :
    decode w = .addReg (fieldDR w) (fieldSR1 w) (fieldSR2 w) := by
  simp only [decode, hop, h5, Bool.false_eq_true, if_false]

theorem decode_addImm (hop : Opcode.ofWord w = .add) (h5 : w.getLsbD 5 = true) :
    decode w = .addImm (fieldDR w) (fieldSR1 w) (fieldImm5 w) := by
  simp only [decode, hop, h5, if_true]

theorem decode_andReg (hop : Opcode.ofWord w = .and) (h5 : w.getLsbD 5 = false) :
    decode w = .andReg (fieldDR w) (fieldSR1 w) (fieldSR2 w) := by
  simp only [decode, hop, h5, Bool.false_eq_true, if_false]

theorem decode_andImm (hop : Opcode.ofWord w = .and) (h5 : w.getLsbD 5 = true) :
    decode w = .andImm (fieldDR w) (fieldSR1 w) (fieldImm5 w) := by
  simp only [decode, hop, h5, if_true]

theorem decode_not (hop : Opcode.ofWord w = .not) : decode w = .not (fieldDR w) (fieldSR1 w) := by
  simp only [decode, hop]

end AluWords

theorem fieldDR_bits (w : Word) : (fieldDR w).bits = w.extractLsb' 9 3 := Reg.bits_ofBits _

theorem fieldSR1_bits (w : Word) : (fieldSR1 w).bits = w.extractLsb' 6 3 := Reg.bits_ofBits _

theorem fieldSR2_bits (w : Word) : (fieldSR2 w).bits = w.extractLsb' 0 3 := Reg.bits_ofBits _

end Sys2Proof
end

section
/-! PROOFS. ADD, AND and NOT (rules R120 to R124). Each ends in `writeFlagged`, whose law gives the flags and the frame;
what is left of an instruction is the value it writes, by the library's law of the word operation. -/

namespace Sys2Proof.Machine

open Sys2Proof

/-- Sign extension bit by bit: above the field each bit is the field's top bit (R86). -/
theorem sext_getLsbD {n : Nat} (hpos : 0 < n) (v : BitVec n) {i : Nat} (hi : i < 16) :
    (sext v).getLsbD i = v.getLsbD (min i (n - 1)) := by
  rw [sext, BitVec.getLsbD_signExtend, decide_eq_true hi, Bool.true_and]
  by_cases hfield : i < n
  · rw [if_pos hfield, Nat.min_eq_left (by omega)]
  · rw [if_neg hfield, Nat.min_eq_right (by omega), BitVec.msb_eq_getLsbD_last]

/-- Settles O19: the sum of words is the sum modulo 65536. -/
theorem addInstructions : Obligations.AddInstructions := by
  refine ⟨fun w hop h5 => ?_, fun w hop h5 => ?_, fun dr sr1 sr2 s => ?_, fun dr sr1 imm s => ?_⟩
  · exact ⟨_, _, _, decode_addReg (Opcode.ofWord_of_extractLsb' hop) h5, fieldDR_bits w, fieldSR1_bits w, fieldSR2_bits w⟩
  · exact ⟨_, _, decode_addImm (Opcode.ofWord_of_extractLsb' hop) h5, fieldDR_bits w, fieldSR1_bits w⟩
  · exact ⟨_, _, exec_addReg dr sr1 sr2 s, BitVec.toNat_add _ _, writeFlagged_spec ..⟩
  · exact ⟨_, _, exec_addImm dr sr1 imm s, BitVec.toNat_add _ _, writeFlagged_spec ..⟩

/-- Settles O20: AND works bit by bit, and bit `i` of the immediate is its bit `min i 4`. -/
theorem andInstructions : Obligations.AndInstructions := by
  refine ⟨fun w hop h5 => ?_, fun w hop h5 => ?_, fun dr sr1 sr2 s => ?_, fun dr sr1 imm s => ?_⟩
  · exact ⟨_, _, _, decode_andReg (Opcode.ofWord_of_extractLsb' hop) h5, fieldDR_bits w, fieldSR1_bits w, fieldSR2_bits w⟩
  · exact ⟨_, _, decode_andImm (Opcode.ofWord_of_extractLsb' hop) h5, fieldDR_bits w, fieldSR1_bits w⟩
  · exact ⟨_, _, exec_andReg dr sr1 sr2 s, fun _ _ => BitVec.getLsbD_and, writeFlagged_spec ..⟩
  · refine ⟨_, _, exec_andImm dr sr1 imm s, fun i hi => ?_, writeFlagged_spec ..⟩
    rw [BitVec.getLsbD_and, sext_getLsbD (by decide) imm hi]

/-- Settles O21: the complement of a word is 0xFFFF minus it. -/
theorem notInstruction : Obligations.NotInstruction := by
  refine ⟨fun w hop => ?_, fun dr sr1 s => ?_⟩
  · exact ⟨_, _, decode_not (Opcode.ofWord_of_extractLsb' hop), fieldDR_bits w, fieldSR1_bits w⟩
  · exact ⟨_, _, exec_not dr sr1 s, BitVec.toNat_not, writeFlagged_spec ..⟩

end Sys2Proof.Machine
end

section
/-! PROOFS. What BR, JMP and JSR words decode to (rules R84, R88, R96): the form of the JSR opcode by bit 11, RET by BaseR. -/

namespace Sys2Proof

section ControlWords

variable {w : Word}

theorem decode_br (hop : Opcode.ofWord w = .br) :
    decode w = .br (w.getLsbD 11) (w.getLsbD 10) (w.getLsbD 9) (fieldOff9 w) := by
  simp only [decode, hop]

theorem decode_jsr (hop : Opcode.ofWord w = .jsr) (h11 : w.getLsbD 11 = true) : decode w = .jsr (fieldOff11 w) := by
  simp only [decode, hop, h11, if_true]

theorem decode_jsrr (hop : Opcode.ofWord w = .jsr) (h11 : w.getLsbD 11 = false) : decode w = .jsrr (fieldSR1 w) := by
  simp only [decode, hop, h11, Bool.false_eq_true, if_false]

theorem fieldSR1_eq_r7_iff : fieldSR1 w = .r7 ↔ w.extractLsb' 6 3 = 0b111#3 :=
  ⟨fun h => (fieldSR1_bits w).symm.trans (congrArg Reg.bits h), congrArg Reg.ofBits⟩

theorem decode_jmp (hop : Opcode.ofWord w = .jmp) (hbase : w.extractLsb' 6 3 ≠ 0b111#3) :
    decode w = .jmp (fieldSR1 w) := by
  simp only [decode, hop, decodeJmp, mt fieldSR1_eq_r7_iff.mp hbase, if_false]

theorem decode_ret (hop : Opcode.ofWord w = .jmp) (hbase : w.extractLsb' 6 3 = 0b111#3) : decode w = .ret := by
  simp only [decode, hop, decodeJmp, fieldSR1_eq_r7_iff.mpr hbase, if_true]

end ControlWords

end Sys2Proof
end

section
/-! PROOFS. BR, JMP, RET, JSR and JSRR (rules R130 to R135). Each ends in a write of the PC, JSR and JSRR after the save of
the return address; the frame is that of the write, so what is left of an instruction is its target. -/

namespace Sys2Proof.Machine

open Sys2Proof

/-- A jump that saves no return address writes the PC alone. -/
theorem setPc_jumpsTo (target v : Word) (s : State) : JumpsTo target [] v s (s.setPc target) :=
  ⟨rfl, fun _ hr => absurd hr List.not_mem_nil, fun _ _ => rfl, rfl, fun _ => rfl, ⟨rfl, rfl, rfl, rfl, rfl⟩,
    ⟨rfl, rfl, rfl, rfl⟩⟩

/-- A jump to a subroutine writes R7, with the return address, and the PC. -/
theorem saveReturn_setPc_jumpsTo (target : Word) (s : State) :
    JumpsTo target [.r7] s.pc s ((saveReturn s).setPc target) := by
  refine ⟨rfl, fun r hr => ?_, fun r hr => ?_, rfl, fun _ => rfl, ⟨rfl, rfl, rfl, rfl, rfl⟩, ⟨rfl, rfl, rfl, rfl⟩⟩
  · rw [List.mem_singleton.mp hr]
    rfl
  · rw [State.setPc_getReg, saveReturn_getReg, if_neg (List.ne_of_not_mem_cons hr)]

/-- A BR is taken exactly when a condition bit and its flag are both set (R130). -/
theorem branchTaken_iff (n z p : Bool) (c : Cond) :
    branchTaken n z p c = true ↔ (n = true ∧ c = .neg) ∨ (z = true ∧ c = .zero) ∨ (p = true ∧ c = .pos) := by
  cases c <;> simp [branchTaken]

/-- Settles O22: the test of the branch is that of the three pairs; a BR that is not taken leaves the PC. -/
theorem branchInstruction : Obligations.BranchInstruction := by
  refine ⟨fun w hop => decode_br (Opcode.ofWord_of_extractLsb' hop), fun n z p off s => ⟨_, exec_br n z p off s, ?_⟩⟩
  simp only [← branchTaken_iff]
  split
  next => exact setPc_jumpsTo _ _ s
  next => exact setPc_jumpsTo s.pc _ s

/-- Settles O24: BaseR selects between the two, and each writes the PC alone. -/
theorem jumpAndReturn : Obligations.JumpAndReturn := by
  refine ⟨fun w hop hbase => ?_, fun w hop => decode_ret (Opcode.ofWord_of_extractLsb' hop), rfl, rfl, fun base s => ?_,
    fun s => ?_⟩
  · exact ⟨_, decode_jmp (Opcode.ofWord_of_extractLsb' hop) hbase, fieldSR1_bits w⟩
  · exact ⟨_, exec_jmp base s, setPc_jumpsTo ..⟩
  · exact ⟨_, exec_ret s, setPc_jumpsTo ..⟩

/-- Settles O25: the target is relative to the incremented PC, which is also the return address. -/
theorem jsrInstruction : Obligations.JsrInstruction :=
  ⟨fun _ hop => decode_jsr (Opcode.ofWord_of_extractLsb' hop),
    fun off s => ⟨_, exec_jsr off s, saveReturn_setPc_jumpsTo ..⟩⟩

/-- Settles O26: BaseR is read after the save of the return address, so R7 reads as that address. -/
theorem jsrrInstruction : Obligations.JsrrInstruction := by
  refine ⟨fun w hop h11 => ?_, fun base s => ⟨_, exec_jsrr base s, ?_⟩⟩
  · exact ⟨_, decode_jsrr (Opcode.ofWord_of_extractLsb' hop) h11, fieldSR1_bits w⟩
  · rw [← saveReturn_getReg]
    exact saveReturn_setPc_jumpsTo _ s

end Sys2Proof.Machine
end

section
/-! PROOFS. What the words of the loads and stores decode to (rule R88): one form each, its operands by their fields. -/

namespace Sys2Proof

section LoadStoreWords

variable {w : Word}

theorem decode_ld (hop : Opcode.ofWord w = .ld) : decode w = .ld (fieldDR w) (fieldOff9 w) := by
  simp only [decode, hop]

theorem decode_ldi (hop : Opcode.ofWord w = .ldi) : decode w = .ldi (fieldDR w) (fieldOff9 w) := by
  simp only [decode, hop]

theorem decode_ldr (hop : Opcode.ofWord w = .ldr) : decode w = .ldr (fieldDR w) (fieldSR1 w) (fieldOff6 w) := by
  simp only [decode, hop]

theorem decode_lea (hop : Opcode.ofWord w = .lea) : decode w = .lea (fieldDR w) (fieldOff9 w) := by
  simp only [decode, hop]

theorem decode_st (hop : Opcode.ofWord w = .st) : decode w = .st (fieldDR w) (fieldOff9 w) := by
  simp only [decode, hop]

theorem decode_sti (hop : Opcode.ofWord w = .sti) : decode w = .sti (fieldDR w) (fieldOff9 w) := by
  simp only [decode, hop]

theorem decode_str (hop : Opcode.ofWord w = .str) : decode w = .str (fieldDR w) (fieldSR1 w) (fieldOff6 w) := by
  simp only [decode, hop]

end LoadStoreWords

end Sys2Proof
end

section
/-! PROOFS. LD, LDI, LDR, LEA, ST, STI and STR (rules R140 to R147). Each is a chain of dispatcher reads (none, one or two)
and then a flagged write or a store. The laws of the three give the frames; what is left of an instruction is its address,
and that a read beside `KBSR` is the cell alone. -/

namespace Sys2Proof.Machine

open Sys2Proof

/-- What a read of any address but `KBSR` has answered (R55, R56). -/
theorem eq_of_memRead_ordinary {a v : Word} {s u : State} (hread : memRead a s = (v, u)) (h : a ≠ Config.kbsrAddr) :
    v = s.cell a ∧ u = s :=
  Prod.mk.inj (hread.symm.trans (memRead_ordinary h s))

/-- Two reads in a row change no more than one may. -/
theorem ReadFrame.trans {s t u : State} (hst : ReadFrame s t) (htu : ReadFrame t u) : ReadFrame s u := by
  obtain ⟨cells, regs, cond, pc, out, flushed, restores, run, fault, wait, params⟩ := hst
  obtain ⟨cells', regs', cond', pc', out', flushed', restores', run', fault', wait', params'⟩ := htu
  exact ⟨fun a hs hd => (cells' a hs hd).trans (cells a hs hd), fun r hr => (regs' r hr).trans (regs r hr),
    cond'.trans cond, pc'.trans pc, out'.trans out, flushed'.trans flushed, restores'.trans restores, run'.trans run,
    fault'.trans fault, wait'.trans wait, params'.trans params⟩

/-- Settles O28: LD is a read and a flagged write. -/
theorem loadPcRelative : Obligations.LoadPcRelative := by
  refine ⟨fun w hop => ?_, fun dr off s => ?_⟩
  · exact ⟨_, decode_ld (Opcode.ofWord_of_extractLsb' hop), fieldDR_bits w⟩
  · exact ⟨_, _, _, exec_ld dr off s, rfl, writeFlagged_spec .., readEffect_frame .., eq_of_memRead_ordinary rfl⟩

/-- Settles O29: LDI is two reads and a flagged write; where neither read is of `KBSR` both are made in the first state. -/
theorem loadIndirect : Obligations.LoadIndirect := by
  refine ⟨fun w hop => ?_, fun dr off s => ?_⟩
  · exact ⟨_, decode_ldi (Opcode.ofWord_of_extractLsb' hop), fieldDR_bits w⟩
  · refine ⟨_, _, _, _, _, exec_ldi dr off s, rfl, rfl, writeFlagged_spec ..,
      (readEffect_frame ..).trans (readEffect_frame ..), eq_of_memRead_ordinary rfl, fun haddr hptr => ?_⟩
    have hfirst : readEffect (s.pc + sext off) s = s := readEffect_ordinary haddr s
    rw [hfirst] at hptr ⊢
    exact eq_of_memRead_ordinary rfl hptr

/-- Settles O30: LDR is a read, at an address taken in the state before it, and a flagged write. -/
theorem loadBaseOffset : Obligations.LoadBaseOffset := by
  refine ⟨fun w hop => ?_, fun dr base off s => ?_⟩
  · exact ⟨_, _, decode_ldr (Opcode.ofWord_of_extractLsb' hop), fieldDR_bits w, fieldSR1_bits w⟩
  · exact ⟨_, _, _, exec_ldr dr base off s, rfl, writeFlagged_spec .., readEffect_frame .., eq_of_memRead_ordinary rfl⟩

/-- Settles O31: LEA is a flagged write of the sum alone. -/
theorem loadEffectiveAddress : Obligations.LoadEffectiveAddress := by
  refine ⟨fun w hop => ?_, fun dr off s => ?_⟩
  · exact ⟨_, decode_lea (Opcode.ofWord_of_extractLsb' hop), fieldDR_bits w⟩
  · exact ⟨_, _, exec_lea dr off s, BitVec.toNat_add _ _, writeFlagged_spec ..⟩

/-- Settles O32: ST is a store alone. -/
theorem storePcRelative : Obligations.StorePcRelative := by
  refine ⟨fun w hop => ?_, fun sr off s => ?_⟩
  · exact ⟨_, decode_st (Opcode.ofWord_of_extractLsb' hop), fieldDR_bits w⟩
  · exact ⟨_, exec_st sr off s, memWrite_spec .., BitVec.toNat_add _ _⟩

/-- Settles O33: STI is a read and a store at what the read answered. -/
theorem storeIndirect : Obligations.StoreIndirect := by
  refine ⟨fun w hop => ?_, fun sr off s => ?_⟩
  · exact ⟨_, decode_sti (Opcode.ofWord_of_extractLsb' hop), fieldDR_bits w⟩
  · exact ⟨_, exec_sti sr off s, rfl, memWrite_spec .., readEffect_frame .., fun haddr => memRead_ordinary haddr s⟩

/-- Settles O34: STR is a store alone, its address and its value both taken in the state before it. -/
theorem storeBaseOffset : Obligations.StoreBaseOffset := by
  refine ⟨fun w hop => ?_, fun sr base off s => ?_⟩
  · exact ⟨_, _, decode_str (Opcode.ofWord_of_extractLsb' hop), fieldDR_bits w, fieldSR1_bits w⟩
  · exact ⟨_, exec_str sr base off s, memWrite_spec .., BitVec.toNat_add _ _⟩

end Sys2Proof.Machine
end

section
/-! PROOFS. The string loop against its pseudocode (rules R116, R164, R166, U6): the pseudocode's loop has one end at most,
and the model's bound loses none, so a string routine answers that end or stops where there is none. -/

namespace Sys2Proof.Machine

open Sys2Proof

variable {cell : Word → CellOutput} {s t u : State}

/-- The loop has one end at most. -/
theorem StringRun.unique {a : Word} (ht : StringRun cell a s t) (hu : StringRun cell a s u) : t = u := by
  induction ht with
  | stop a s hlast =>
    cases hu with
    | stop => rfl
    | more _ _ _ hgoes => rw [hlast] at hgoes; cases hgoes
  | more a s t hgoes _ ih =>
    cases hu with
    | stop _ _ hlast => rw [hgoes] at hlast; cases hlast
    | more _ _ _ _ rest => exact ih rest

/-- A string routine answers the end of its string, flushed. -/
theorem StringRun.printString_eq (h : StringRun cell (s.getReg .r0) s u) : printString cell s = .next u.consoleFlush := by
  obtain ⟨t, ht⟩ := Option.isSome_iff_exists.mp h.stringLoop_isSome
  rw [printString, ht, (stringLoop_sound ht).unique h]

theorem printString_next_iff :
    printString cell s = .next t ↔ ∃ u, StringRun cell (s.getReg .r0) s u ∧ t = u.consoleFlush := by
  refine ⟨printString_next, ?_⟩
  rintro ⟨u, hu, rfl⟩
  exact hu.printString_eq

theorem printString_fault_iff :
    printString cell s = .fault .unterminatedString ↔ ¬∃ u, StringRun cell (s.getReg .r0) s u := by
  refine ⟨not_exists_stringRun_of_fault, fun hnone => ?_⟩
  rcases printString_cases cell s with ⟨u, hu, -⟩ | h
  · exact absurd ⟨u, hu⟩ hnone
  · exact h

/-- Settles O43: both routines are `printString`, from R0, which the save of the return address leaves. -/
theorem stringRoutinesFollowPseudocode : Obligations.StringRoutinesFollowPseudocode :=
  fun _ => ⟨fun _ => printString_next_iff, printString_fault_iff, fun _ => printString_next_iff, printString_fault_iff⟩

end Sys2Proof.Machine
end

section
/-! PROOFS. The frame of a TRAP (rules R160, R168) and the routines that neither read a key nor a cell: OUT, HALT and the
fatal condition of an unrecognised vector (rules R161, R163, R167, R192, R193). Where the model's routine already has an
obligation's name, as `outRoutine`, the theorem that settles it is `outRoutine_spec`. -/

namespace Sys2Proof.Machine

open Sys2Proof

/-- After the save of the return address a routine that leaves the other registers, COND, PC, the cells and the parameters
has the frame of a TRAP. -/
theorem saveReturn_trapFrame {s t : State} (hregs : ∀ r, t.getReg r = (saveReturn s).getReg r) (hcond : t.cond = s.cond)
    (hpc : t.pc = s.pc) (hcells : SameCells s t) (hparams : t.params = s.params) : TrapFrame [] s t := by
  refine ⟨hregs .r7, fun r hr => ?_, hcond, hpc, hcells, hparams⟩
  rw [hregs, saveReturn_getReg, if_neg (List.ne_of_not_mem_cons hr)]

/-- From `s` to `t` a TRAP wrote the bytes to the console, flushed it, and changed nothing else but R7. -/
def Prints (bs : List Byte) (s t : State) : Prop :=
  t.outStream = s.outStream ++ bs ∧ t.flushed = t.outStream.length ∧ TrapFrame [] s t ∧ t.keys = s.keys ∧
    t.arrivals = s.arrivals ∧ t.terminalRestores = s.terminalRestores ∧ SameEngine s t

theorem saveReturn_prints (bs : List Byte) (s : State) :
    Prints bs s ((saveReturn s).consoleWriteAll bs).consoleFlush :=
  ⟨rfl, rfl, saveReturn_trapFrame (fun _ => rfl) rfl rfl (fun _ => rfl) rfl, rfl, rfl, rfl,
    ⟨rfl, rfl, rfl, rfl⟩⟩

theorem exec_halt_trapFrame {s t : State} (h : exec .halt s = .next t) : TrapFrame [] s t := by
  cases h
  exact saveReturn_trapFrame (fun _ => rfl) rfl rfl (fun _ => rfl) rfl

/-- Settles O35: the fatal condition after the save of the return address. -/
theorem unknownTrapVector : Obligations.UnknownTrapVector := by
  intro vec s h
  have hvec : recognisedVector vec = false := by
    simp only [recognisedVector, Bool.and_eq_false_iff, decide_eq_false_iff_not]
    omega
  exact ⟨_, exec_trap_unrecognised hvec s, rfl, rfl, zext_toNat vec,
    saveReturn_trapFrame (fun _ => rfl) rfl rfl (fun _ => rfl) rfl, rfl, rfl, rfl, rfl, rfl, rfl⟩

/-- Settles O38: the words are those of 0xF021 but for ignored bits; the byte is R0 modulo 256. -/
theorem outRoutine_spec : Obligations.OutRoutine := by
  refine ⟨fun w hw => (decode_congr_trap (v := 0xF021#16) rfl hw.symm).symm, fun s => ?_⟩
  obtain ⟨hout, hrest⟩ := saveReturn_prints [lowByte (s.getReg .r0)] s
  exact ⟨_, _, exec_out s, hout, by simp [lowByte], hrest⟩

/-- Settles O44: RUN, the terminal and the message are the routine's own updates; the exit status is that of a good end. -/
theorem haltRoutine_spec : Obligations.HaltRoutine := by
  refine fun s => ⟨_, exec_halt s, rfl, rfl, rfl, rfl, rfl, rfl, exec_halt_trapFrame (exec_halt s), rfl, rfl,
    fun hnone => ⟨⟨rfl, hnone⟩, ?_⟩⟩
  simp [exitStatus, hnone]

end Sys2Proof.Machine
end

section
/-! PROOFS. GETC and IN (rules R118, R162, R165): a TRAP whose end is a look at the keyboard. -/

namespace Sys2Proof.Machine

open Sys2Proof

/-- What a look at the keyboard finds depends on the queue and the arrivals alone. -/
theorem sampleKeyboard_congr {s t : State} (hkeys : t.keys = s.keys) (harrivals : t.arrivals = s.arrivals) :
    t.sampleKeyboard.keys = s.sampleKeyboard.keys ∧ t.sampleKeyboard.arrivals = s.sampleKeyboard.arrivals := by
  cases h : s.arrivals with
  | nil =>
    rw [sampleKeyboard_nil h, sampleKeyboard_nil (harrivals.trans h)]
    exact ⟨hkeys, harrivals⟩
  | cons b bs =>
    rw [sampleKeyboard_cons h, sampleKeyboard_cons (harrivals.trans h), hkeys]
    exact ⟨rfl, rfl⟩

/-- With no key the wait begins, all else kept but what the environment does (R118). -/
theorem awaitKey_no_key (w : KeyWait) {s : State} (h : s.sampleKeyboard.keys = []) :
    (awaitKey w s).regs = s.regs ∧ (awaitKey w s).keys = [] ∧
      (awaitKey w s).arrivals = s.sampleKeyboard.arrivals ∧ (awaitKey w s).outStream = s.outStream ∧
      (awaitKey w s).flushed = s.flushed ∧ (awaitKey w s).wait = some w := by
  rw [awaitKey_nil w h, sampleKeyboard_eq s]
  exact ⟨rfl, h, rfl, rfl, rfl, rfl⟩

/-! ## Up to the look at the keyboard -/

/-- The state in which GETC looks at the keyboard, and that in which IN does, the prompt visible (R165). -/
def beforeKey : KeyWait → State → State
  | .getc, s => saveReturn s
  | .inKey, s => ((saveReturn s).consoleWriteAll s.params.inPrompt).consoleFlush

theorem exec_getc_beforeKey (s : State) : exec .getc s = .next (awaitKey .getc (beforeKey .getc s)) := rfl

theorem exec_inKey_beforeKey (s : State) : exec .inKey s = .next (awaitKey .inKey (beforeKey .inKey s)) := rfl

section Key

variable (w : KeyWait) (s : State)

theorem beforeKey_sampleKeyboard :
    (beforeKey w s).sampleKeyboard.keys = s.sampleKeyboard.keys ∧
      (beforeKey w s).sampleKeyboard.arrivals = s.sampleKeyboard.arrivals := by
  cases w <;> exact sampleKeyboard_congr rfl rfl

theorem beforeKey_trapFrame : TrapFrame [] s (beforeKey w s) := by
  cases w <;> exact saveReturn_trapFrame (fun _ => rfl) rfl rfl (fun _ => rfl) rfl

theorem beforeKey_engine :
    (beforeKey w s).terminalRestores = s.terminalRestores ∧ (beforeKey w s).run = s.run ∧
      (beforeKey w s).fault = s.fault := by
  cases w <;> exact ⟨rfl, rfl, rfl⟩

/-! ## The whole routine, with a key and without -/

/-- Either way the terminal, RUN and the fault record stay. -/
theorem awaitKey_beforeKey_engine :
    (awaitKey w (beforeKey w s)).terminalRestores = s.terminalRestores ∧ (awaitKey w (beforeKey w s)).run = s.run ∧
      (awaitKey w (beforeKey w s)).fault = s.fault := by
  rw [awaitKey_terminalRestores, awaitKey_run, awaitKey_fault]
  exact beforeKey_engine w s

variable {s}

/-- A look at the keyboard that leaves the registers listed aside keeps the frame of a TRAP. -/
theorem TrapFrame.after_awaitKey {ds : List Reg} {u : State} (hu : TrapFrame [] s u)
    (hregs : SameRegsBut ds u (awaitKey w u)) (h7 : .r7 ∉ ds) : TrapFrame ds s (awaitKey w u) := by
  obtain ⟨hr7, hregs', hcond, hpc, hcells, hparams⟩ := hu
  refine ⟨(hregs _ h7).trans hr7, fun r hr => ?_, by simpa, by simpa, fun a => by simpa using hcells a, by simpa⟩
  rw [hregs r (List.not_mem_of_not_mem_cons hr), hregs' r (by simpa using List.ne_of_not_mem_cons hr)]

/-- With a key the routine stores it and completes. -/
theorem awaitKey_beforeKey_of_key {k : Byte} {ks : List Byte} (h : s.sampleKeyboard.keys = k :: ks) :
    (awaitKey w (beforeKey w s)).getReg .r0 = zext k ∧ TrapFrame [.r0] s (awaitKey w (beforeKey w s)) ∧
      (awaitKey w (beforeKey w s)).keys = ks ∧ (awaitKey w (beforeKey w s)).arrivals = s.sampleKeyboard.arrivals ∧
      (awaitKey w (beforeKey w s)).wait = none := by
  obtain ⟨hkeys, harrivals⟩ := beforeKey_sampleKeyboard w s
  obtain ⟨hr0, hwait, hkeys', harrivals'⟩ := awaitKey_of_key w (hkeys.trans h)
  exact ⟨hr0, (beforeKey_trapFrame w s).after_awaitKey w
    (fun r hr => awaitKey_getReg w _ (List.ne_of_not_mem_cons hr)) (by decide), hkeys', harrivals'.trans harrivals, hwait⟩

/-- With no key the routine is left waiting. -/
theorem awaitKey_beforeKey_of_no_key (h : s.sampleKeyboard.keys = []) :
    TrapFrame [] s (awaitKey w (beforeKey w s)) ∧ (awaitKey w (beforeKey w s)).keys = [] ∧
      (awaitKey w (beforeKey w s)).arrivals = s.sampleKeyboard.arrivals ∧
      (awaitKey w (beforeKey w s)).outStream = (beforeKey w s).outStream ∧
      (awaitKey w (beforeKey w s)).flushed = (beforeKey w s).flushed ∧ (awaitKey w (beforeKey w s)).wait = some w := by
  obtain ⟨hkeys, harrivals⟩ := beforeKey_sampleKeyboard w s
  obtain ⟨hregs, hkeys', harrivals', hout, hflushed, hwait⟩ := awaitKey_no_key w (hkeys.trans h)
  exact ⟨(beforeKey_trapFrame w s).after_awaitKey w (fun r _ => congrArg (·.get r) hregs) List.not_mem_nil, hkeys',
    harrivals'.trans harrivals, hout, hflushed, hwait⟩

end Key

/-- Settles O37: GETC writes nothing before its look at the keyboard, nor after it. -/
theorem getcRoutine_spec : Obligations.GetcRoutine := by
  refine ⟨fun s k ks h => ?_, fun s h => ?_⟩
  all_goals obtain ⟨hrestores, hrun, hfault⟩ := awaitKey_beforeKey_engine .getc s
  · obtain ⟨hr0, hframe, hkeys, harrivals, hwait⟩ := awaitKey_beforeKey_of_key .getc h
    obtain ⟨hout, hflushed⟩ := awaitKey_getc_console ((beforeKey_sampleKeyboard .getc s).1.trans h)
    exact ⟨_, exec_getc_beforeKey s, by rw [hr0, zext_toNat], hframe, hkeys, harrivals, hout, hflushed, hrestores, hrun,
      hfault, hwait⟩
  · obtain ⟨hframe, hkeys, harrivals, hout, hflushed, hwait⟩ := awaitKey_beforeKey_of_no_key .getc h
    exact ⟨_, exec_getc_beforeKey s, hframe, hkeys, harrivals, hout, hflushed, hrestores, hrun, hfault, hwait⟩

/-- Settles O40: IN has written the prompt before its look at the keyboard, and echoes the key after it. -/
theorem inRoutine_spec : Obligations.InRoutine := by
  refine ⟨fun s k ks h => ?_, fun s h => ?_⟩
  all_goals obtain ⟨hrestores, hrun, hfault⟩ := awaitKey_beforeKey_engine .inKey s
  · obtain ⟨hr0, hframe, hkeys, harrivals, hwait⟩ := awaitKey_beforeKey_of_key .inKey h
    obtain ⟨hout, hflushed⟩ := awaitKey_inKey_console ((beforeKey_sampleKeyboard .inKey s).1.trans h)
    exact ⟨_, exec_inKey_beforeKey s, by rw [hr0, zext_toNat], hframe, hkeys, harrivals, hout, hflushed, hrestores, hrun,
      hfault, hwait⟩
  · obtain ⟨hframe, hkeys, harrivals, hout, hflushed, hwait⟩ := awaitKey_beforeKey_of_no_key .inKey h
    exact ⟨_, exec_inKey_beforeKey s, hframe, hkeys, harrivals, hout, by rw [hflushed, hout]; rfl, hrestores, hrun,
      hfault, hwait⟩

end Sys2Proof.Machine
end

section
/-! PROOFS. PUTS and PUTSP on a string that does not run over `KBSR` (rules R164, R166, U5): no read changes anything, so
the bytes written are those of the cells as they stand. -/

namespace Sys2Proof.Machine

open Sys2Proof

/-! ## One cell -/

theorem putsCell_of_eq_zero {w : Word} (h : w = 0#16) : putsCell w = ⟨[], true⟩ := if_pos h

theorem putsCell_of_ne {w : Word} (h : w ≠ 0#16) : putsCell w = ⟨[lowByte w], false⟩ := if_neg h

/-- The bytes of a cell of a packed string: a zero high byte is none. -/
def packedBytes (w : Word) : List Byte := if highByte w = 0#8 then [lowByte w] else [lowByte w, highByte w]

theorem packedBytes_of_high_ne {w : Word} (h : highByte w ≠ 0#8) : packedBytes w = [lowByte w, highByte w] := if_neg h

theorem packedBytes_of_high_eq {w : Word} (h : highByte w = 0#8) : packedBytes w = [lowByte w] := if_pos h

theorem putspCell_zeroByte_full {w : Word} (hlo : lowByte w ≠ 0#8) (hhi : highByte w ≠ 0#8) :
    putspCell .zeroByte w = ⟨[lowByte w, highByte w], false⟩ := by
  simp [putspCell, hlo, hhi]

theorem putspCell_zeroByte_last {w : Word} (h : lowByte w = 0#8 ∨ highByte w = 0#8) :
    putspCell .zeroByte w = ⟨if lowByte w = 0#8 then [] else [lowByte w], true⟩ := by
  by_cases hlo : lowByte w = 0#8
  · simp [putspCell, hlo]
  · simp [putspCell, hlo, h.resolve_left hlo]

/-- Both readings end a string at a zero cell. -/
theorem putspCell_of_eq_zero (rule : Config.PutspRule) {w : Word} (h : w = 0#16) : putspCell rule w = ⟨[], true⟩ := by
  subst h
  cases rule <;> rfl

theorem putspCell_zeroCell_of_ne {w : Word} (h : w ≠ 0#16) : putspCell .zeroCell w = ⟨packedBytes w, false⟩ := by
  by_cases hhi : highByte w = 0#8 <;> simp [putspCell, packedBytes, h, hhi]

theorem ne_zero_of_lowByte_ne {w : Word} (h : lowByte w ≠ 0#8) : w ≠ 0#16 := by
  rintro rfl
  exact h rfl

/-! ## The whole string -/

theorem consoleWriteAll_append (s : State) (bs cs : List Byte) :
    (s.consoleWriteAll bs).consoleWriteAll cs = s.consoleWriteAll (bs ++ cs) :=
  congrArg (fun out => { s with outStream := out }) (List.append_assoc ..)

/-- The address `i` cells on, one cell further on. -/
theorem add_one_add_ofNat (a : Word) (i : Nat) : a + 1#16 + BitVec.ofNat 16 i = a + BitVec.ofNat 16 (i + 1) := by
  rw [BitVec.add_assoc, Nat.add_comm i 1, BitVec.ofNat_add]

section Strings

variable {cell : Word → CellOutput} {s : State} {n : Nat} {f : Nat → List Byte} {bs : List Byte}

/-- The loop over `n` cells that go on and one that ends the string. -/
theorem stringRun_ordinary {a : Word} (hkbsr : ∀ i ≤ n, a + BitVec.ofNat 16 i ≠ Config.kbsrAddr)
    (hmore : ∀ i < n, cell (s.cell (a + BitVec.ofNat 16 i)) = ⟨f i, false⟩)
    (hlast : cell (s.cell (a + BitVec.ofNat 16 n)) = ⟨bs, true⟩) :
    StringRun cell a s (s.consoleWriteAll ((List.range n).flatMap f ++ bs)) := by
  have hread : memRead a s = (s.cell a, s) := memRead_ordinary (by simpa using hkbsr 0 n.zero_le) s
  induction n generalizing a s f with
  | zero =>
    rw [BitVec.add_zero] at hlast
    simpa [hread, hlast] using StringRun.stop (cell := cell) a s (by rw [hread, hlast])
  | succ n ih =>
    have hfirst : cell (s.cell a) = ⟨f 0, false⟩ := by simpa using hmore 0 n.succ_pos
    have rest := ih (a := a + 1#16) (s := s.consoleWriteAll (f 0)) (f := fun i => f (i + 1))
      (fun i hi => by rw [add_one_add_ofNat]; exact hkbsr (i + 1) (by omega))
      (fun i hi => by rw [add_one_add_ofNat]; exact hmore (i + 1) (by omega))
      (by rw [add_one_add_ofNat]; exact hlast) (memRead_ordinary (by simpa using hkbsr 1 (by omega)) _)
    rw [consoleWriteAll_append, ← List.append_assoc] at rest
    rw [List.range_succ_eq_map, List.flatMap_cons, List.flatMap_map]
    exact StringRun.more a s _ (by rw [hread, hfirst]) (by rw [hread, hfirst]; exact rest)

/-- A string routine on such a string. -/
theorem printString_ordinary (hkbsr : ∀ i ≤ n, s.getReg .r0 + BitVec.ofNat 16 i ≠ Config.kbsrAddr)
    (hmore : ∀ i < n, cell (s.cell (s.getReg .r0 + BitVec.ofNat 16 i)) = ⟨f i, false⟩)
    (hlast : cell (s.cell (s.getReg .r0 + BitVec.ofNat 16 n)) = ⟨bs, true⟩) :
    ∃ t, printString cell (saveReturn s) = .next t ∧ Prints ((List.range n).flatMap f ++ bs) s t :=
  have run : StringRun cell ((saveReturn s).getReg .r0) (saveReturn s) _ := stringRun_ordinary hkbsr hmore hlast
  ⟨_, run.printString_eq, saveReturn_prints _ s⟩

/-- PUTSP on such a string under either reading. -/
theorem exec_putsp_withRule {rule : Config.PutspRule}
    (hkbsr : ∀ i ≤ n, s.getReg .r0 + BitVec.ofNat 16 i ≠ Config.kbsrAddr)
    (hmore : ∀ i < n, putspCell rule (s.cell (s.getReg .r0 + BitVec.ofNat 16 i)) = ⟨f i, false⟩)
    (hlast : putspCell rule (s.cell (s.getReg .r0 + BitVec.ofNat 16 n)) = ⟨bs, true⟩) :
    ∃ t, exec .putsp { s with params := { s.params with putspRule := rule } } = .next t ∧
      t.outStream = s.outStream ++ ((List.range n).flatMap f ++ bs) :=
  have ⟨t, ht, hout, _⟩ :=
    printString_ordinary (s := { s with params := { s.params with putspRule := rule } }) hkbsr hmore hlast
  ⟨t, ht, hout⟩

end Strings

/-- Settles O39: each cell but the zero one writes its low byte. -/
theorem putsRoutine_spec : Obligations.PutsRoutine := by
  intro s n hkbsr hmore hlast
  have h := printString_ordinary (s := s) hkbsr (fun i hi => putsCell_of_ne (hmore i hi))
    (putsCell_of_eq_zero hlast)
  rwa [List.append_nil, ← List.map_eq_flatMap] at h

/-- Settles O41, by the cells of each reading: under `zero_byte` the last cell may write its low byte. -/
theorem putspRoutine_spec : Obligations.PutspRoutine := by
  intro s n hkbsr cell lo hi
  refine ⟨fun hrule hfull hlast => ?_, fun hrule hmore hlast => ?_⟩
  all_goals rw [exec_putsp, hrule]
  · have h := printString_ordinary (s := s) hkbsr
      (fun i hlt => putspCell_zeroByte_full (hfull i hlt).1 (hfull i hlt).2) (putspCell_zeroByte_last hlast)
    rw [List.append_assoc]
    exact h
  · have h := printString_ordinary (s := s) hkbsr (fun i hlt => putspCell_zeroCell_of_ne (hmore i hlt))
      (putspCell_of_eq_zero _ hlast)
    rw [List.append_nil] at h
    exact h

/-- Settles O42: on the cells before the last both readings write the packed bytes; a last cell with a low byte alone is
for `zero_byte` the end, and for `zero_cell` one more cell before it. -/
theorem putspReadingsAgree : Obligations.PutspReadingsAgree := by
  intro s n cell hkbsr hfull hend
  have byte : ∀ i < n, putspCell .zeroByte (cell i) = ⟨packedBytes (cell i), false⟩ := fun i hi => by
    obtain ⟨hlo, hhi⟩ := hfull i hi
    rw [putspCell_zeroByte_full hlo hhi, packedBytes_of_high_ne hhi]
  have whole : ∀ i < n, putspCell .zeroCell (cell i) = ⟨packedBytes (cell i), false⟩ := fun i hi =>
    putspCell_zeroCell_of_ne (ne_zero_of_lowByte_ne (hfull i hi).1)
  rcases hend with hzero | ⟨hlo, hhi, hkbsr', hzero⟩
  · obtain ⟨t, ht, hout⟩ := exec_putsp_withRule hkbsr byte (putspCell_of_eq_zero _ hzero)
    obtain ⟨u, hu, hout'⟩ := exec_putsp_withRule hkbsr whole (putspCell_of_eq_zero _ hzero)
    exact ⟨t, u, ht, hu, hout.trans hout'.symm⟩
  · have kbsr : ∀ i ≤ n + 1, s.getReg .r0 + BitVec.ofNat 16 i ≠ Config.kbsrAddr := fun i hi => by
      rcases Nat.le_or_eq_of_le_succ hi with hle | rfl
      · exact hkbsr i hle
      · exact hkbsr'
    have whole' : ∀ i < n + 1, putspCell .zeroCell (cell i) = ⟨packedBytes (cell i), false⟩ := fun i hi => by
      rcases Nat.lt_succ_iff_lt_or_eq.mp hi with hlt | rfl
      · exact whole i hlt
      · exact putspCell_zeroCell_of_ne (ne_zero_of_lowByte_ne hlo)
    obtain ⟨t, ht, hout⟩ := exec_putsp_withRule hkbsr byte (putspCell_zeroByte_last (.inr hhi))
    obtain ⟨u, hu, hout'⟩ := exec_putsp_withRule kbsr whole' (putspCell_of_eq_zero _ hzero)
    refine ⟨t, u, ht, hu, ?_⟩
    rw [hout, hout', List.range_succ, List.flatMap_append, List.flatMap_singleton, packedBytes_of_high_eq hhi,
      List.append_nil]
    exact congrArg _ (congrArg _ (if_neg hlo))

end Sys2Proof.Machine
end

section
/-! PROOFS. TRAP with one of the six vectors (rules R92, R160), as instruction and as word. -/

namespace Sys2Proof.Machine

open Sys2Proof

/-- What the decoder makes of a vector is TRAP with that vector. -/
theorem exec_decodeTrap (vec : BitVec 8) (s : State) : exec (decodeTrap vec) s = exec (.trap vec) s := by
  rcases execTrap_cases vec s with ⟨rfl, e⟩ | ⟨rfl, e⟩ | ⟨rfl, e⟩ | ⟨rfl, e⟩ | ⟨rfl, e⟩ | ⟨rfl, e⟩ | ⟨hvec, -⟩
  case inr.inr.inr.inr.inr.inr => rw [decodeTrap_unrecognised (recognisedVector_eq_false hvec)]
  all_goals exact e.symm

/-- A string routine writes nothing on an empty string. -/
theorem printString_empty {cell : Word → CellOutput} {s : State} (hkbsr : s.getReg .r0 ≠ Config.kbsrAddr)
    (hcell : cell (s.cell (s.getReg .r0)) = ⟨[], true⟩) :
    ∃ t, printString cell (saveReturn s) = .next t ∧ t.outStream = s.outStream ∧ TrapFrame [] s t := by
  have hfirst : s.getReg .r0 + BitVec.ofNat 16 0 = s.getReg .r0 := BitVec.add_zero _
  obtain ⟨t, ht, hout, -, hframe, -⟩ := printString_ordinary (cell := cell) (n := 0) (f := fun _ => [])
    (fun i hi => by rwa [Nat.le_zero.mp hi, hfirst]) (fun i hi => absurd hi i.not_lt_zero) (by rwa [hfirst])
  exact ⟨t, ht, hout.trans (List.append_nil _), hframe⟩

/-- Settles O36, by the cases of TRAP and what each of the six routines answers. -/
theorem recognisedTrapVectors : Obligations.RecognisedTrapVectors := by
  refine ⟨fun s => ⟨rfl, rfl, rfl, rfl, rfl, rfl⟩, fun w hop s => ?_, fun s k ks h => ?_, fun s hkbsr hzero => ?_,
    fun s => ?_, fun s => ?_⟩
  · rw [← exec_decodeTrap, decode, hop]
    rfl
  · obtain ⟨hr0, hframe, hkeys, -, hwait⟩ := awaitKey_beforeKey_of_key .getc h
    obtain ⟨hr0', hframe', hkeys', -, hwait'⟩ := awaitKey_beforeKey_of_key .inKey h
    exact ⟨⟨_, exec_getc_beforeKey s, hr0, hkeys, hwait, hframe⟩,
      ⟨_, exec_inKey_beforeKey s, hr0', hkeys', hwait', hframe'⟩⟩
  · exact ⟨printString_empty hkbsr (putsCell_of_eq_zero hzero), printString_empty hkbsr (putspCell_of_eq_zero _ hzero)⟩
  · obtain ⟨hout, -, hframe, -⟩ := saveReturn_prints [lowByte (s.getReg .r0)] s
    exact ⟨_, exec_out s, hout, hframe⟩
  · exact ⟨_, exec_halt s, rfl, rfl, exec_halt_trapFrame (exec_halt s)⟩

end Sys2Proof.Machine
end

section
/-! PROOFS. The console output stream (rules R35, R169): every update appends to it or leaves it. -/

namespace Sys2Proof.Machine

open Sys2Proof

theorem awaitKey_outStream_grows (w : KeyWait) (s : State) : s.outStream <+: (awaitKey w s).outStream :=
  awaitKey_keeps (P := fun u => s.outStream <+: u.outStream) w (List.prefix_refl _)
    (hkey := fun _ _ _ _ hu => hu) (hreg := fun _ _ hu => hu)
    (hwrite := fun _ _ _ hu => hu.trans (List.prefix_append _ _)) (hflush := fun _ _ hu => hu)

theorem exec_outStream_grows {i : Instr} {s t : State} (h : exec i s = .next t) : s.outStream <+: t.outStream :=
  exec_keeps_but (P := fun u => s.outStream <+: u.outStream) h (List.prefix_refl _)
    (hawait := fun _ w u hu => hu.trans (awaitKey_outStream_grows w u))
    (hwrite := fun _ _ _ hu => hu.trans (List.prefix_append _ _))

/-- A look at the keyboard inside GETC leaves the console, with a key or without (R162). -/
theorem awaitKey_getc_console_eq (s : State) :
    (awaitKey .getc s).outStream = s.outStream ∧ (awaitKey .getc s).flushed = s.flushed := by
  rcases awaitKey_cases .getc s with ⟨hnone, -⟩ | ⟨k, ks, hkey, -⟩
  · obtain ⟨-, -, -, hout, hflushed, -⟩ := awaitKey_no_key .getc hnone
    exact ⟨hout, hflushed⟩
  · exact awaitKey_getc_console hkey

/-- An instruction that does not write to the console leaves it. -/
theorem exec_console {i : Instr} {s t : State} (hc : writesConsole i = false) (h : exec i s = .next t) :
    t.outStream = s.outStream ∧ t.flushed = s.flushed := by
  have silent : ¬writesConsole i = true := by simp [hc]
  exact exec_keeps (P := fun u => u.outStream = s.outStream ∧ u.flushed = s.flushed) h ⟨rfl, rfl⟩
    (hreg := fun _ _ _ _ hu => hu) (hcc := fun _ _ _ hu => hu) (hpc := fun _ _ _ hu => hu)
    (hread := fun _ _ _ hu => by simpa using hu) (hstore := fun _ _ _ _ hu => hu)
    (hawait := fun _ w u hin hu => by
      cases w with
      | getc =>
        obtain ⟨hout, hflushed⟩ := awaitKey_getc_console_eq u
        rwa [hout, hflushed]
      | inKey => exact absurd (hin rfl) silent)
    (hwrite := fun hc' => absurd hc' silent) (hflush := fun hc' => absurd hc' silent)
    (hend := fun _ _ hu => hu) (hfault := fun _ _ _ _ _ _ hu => hu)

/-- Settles O52, by the three cases of a step, and the frame of an instruction that does not write to the console. -/
theorem consoleWrittenOnlyByRoutines : Obligations.ConsoleWrittenOnlyByRoutines := by
  refine ⟨fun s t h => ?_, fun i s t => exec_console⟩
  rcases step_cases s with ⟨-, hstep⟩ | ⟨-, w, -, hstep⟩ | ⟨-, -, hstep⟩
  all_goals rw [hstep] at h
  · cases h
    exact List.prefix_refl _
  · cases h
    exact awaitKey_outStream_grows w s
  · have hfetch : (fetch s).2.outStream = s.outStream := by simp
    exact hfetch ▸ exec_outStream_grows h

end Sys2Proof.Machine
end

section
/-! PROOFS. RTI and RES (rules R180, R181, R191, R193): a reserved word is its opcode and the low twelve bits its
instruction holds, the record of the fatal condition is that whole word, and nothing else changes. -/

namespace Sys2Proof

section ReservedWords

variable {w : Word}

theorem decode_rti (hop : Opcode.ofWord w = .rti) : decode w = .rti (fieldLow12 w) := by
  simp only [decode, hop]

theorem decode_res (hop : Opcode.ofWord w = .res) : decode w = .res (fieldLow12 w) := by
  simp only [decode, hop]

theorem eq_append_fieldLow12 {op : BitVec 4} (h : w.extractLsb' 12 4 = op) : w = op ++ fieldLow12 w := by
  rw [← h, ← Opcode.bits_ofWord]
  exact (formatNONE_ofWord w).symm

end ReservedWords

theorem toNat_opcode_append (op : BitVec 4) (low : BitVec 12) :
    (op ++ low).toNat = op.toNat * 0x1000 + low.toNat := by
  rw [BitVec.toNat_append, ← Nat.shiftLeft_add_eq_or_of_lt low.isLt, Nat.shiftLeft_eq]

end Sys2Proof

namespace Sys2Proof.Machine

open Sys2Proof

/-- What a fatal condition leaves: all but the record, RUN and the terminal (R193). -/
theorem raiseFatal_frame (c : FaultCause) (info : Word) (s : State) :
    SameRegsBut [] s (raiseFatal c info s) ∧ (raiseFatal c info s).pc = s.pc ∧ (raiseFatal c info s).cond = s.cond ∧
      SameCells s (raiseFatal c info s) ∧ (raiseFatal c info s).keys = s.keys ∧
      (raiseFatal c info s).arrivals = s.arrivals ∧ (raiseFatal c info s).outStream = s.outStream ∧
      (raiseFatal c info s).flushed = s.flushed ∧ (raiseFatal c info s).wait = s.wait ∧
      (raiseFatal c info s).params = s.params := by
  simp [SameRegsBut, SameCells]

/-- Settles O46: the decoding by the opcode, the recorded word as a number, and the frame of a fatal condition. -/
theorem reservedOpcodes : Obligations.ReservedOpcodes := by
  refine ⟨fun w h => ?_, fun w h => ?_, fun low s => ?_, fun low s => ?_⟩
  · exact ⟨_, decode_rti (Opcode.ofWord_of_extractLsb' h), eq_append_fieldLow12 h⟩
  · exact ⟨_, decode_res (Opcode.ofWord_of_extractLsb' h), eq_append_fieldLow12 h⟩
  · exact ⟨_, exec_rti low s, rfl, rfl, toNat_opcode_append 0b1000#4 low, rfl, raiseFatal_frame ..⟩
  · exact ⟨_, exec_res low s, rfl, rfl, toNat_opcode_append 0b1101#4 low, rfl, raiseFatal_frame ..⟩

end Sys2Proof.Machine
end

section
/-! PROOFS. The exit status (rules R196, R208): its value while RUNNING, at a good end and after a fatal condition. -/

namespace Sys2Proof.Machine

open Sys2Proof

section ExitStatus

variable {s : State}

theorem exitStatus_running (h : s.run = true) : exitStatus s = none := by
  rw [exitStatus, if_pos h]

theorem exitStatus_goodEnd (h : GoodEnd s) : exitStatus s = some 0 := by
  obtain ⟨hhalted, hnone⟩ := h
  rw [exitStatus, if_neg (ne_true_of_eq_false hhalted), if_pos hnone]

theorem exitStatus_faulted (h : Faulted s) : exitStatus s = some s.params.exitFault := by
  obtain ⟨hhalted, hfault⟩ := h
  rw [exitStatus, if_neg (ne_true_of_eq_false hhalted), if_neg hfault]

end ExitStatus

/-- Settles O56: one value per case; the invariant keeps `EXIT_FAULT` nonzero. -/
theorem exitStatusRule : Obligations.ExitStatusRule := fun _ hinv =>
  ⟨exitStatus_running, exitStatus_goodEnd, fun hfaulted => ⟨_, exitStatus_faulted hfaulted, hinv.exitFault⟩⟩

end Sys2Proof.Machine
end

section
/-! PROOFS. Images and the boot (rules R221 to R226): what a cell holds after words were stored, the boot as a fold over
the images, and the bytes of a file. -/

namespace Sys2Proof.Machine

open Sys2Proof

/-! ## Storing the words of an image (R223) -/

/-- What a cell reads after `ws` was stored from `a`: the word at its distance from `a`, modulo 65536, if `ws` reaches so
far. No cell is stored twice. -/
theorem loadWords_cell {ws : List Word} (hlen : ws.length ≤ 65536) (a : Word) (s : State) (b : Word) :
    (loadWords a ws s).cell b = ws[(b - a).toNat]?.getD (s.cell b) := by
  induction ws generalizing a s with
  | nil => rfl
  | cons w ws ih =>
    rw [List.length_cons] at hlen
    rw [loadWords, ih (by omega), State.setCell_cell]
    by_cases hb : b = a
    · have hpast : ws.length ≤ (b - (a + 1#16)).toNat := by bv_omega
      rw [List.getElem?_eq_none hpast, Option.getD_none, if_pos hb, hb, BitVec.sub_self]
      rfl
    · have hdist : (b - a).toNat = (b - (a + 1#16)).toNat + 1 := by bv_omega
      rw [hdist, if_neg hb, List.getElem?_cons_succ]

/-- Settles O57, by the distance of a cell from the origin. -/
theorem imageWordsAreStored : Obligations.ImageWordsAreStored := by
  intro im s hfits
  have hcell := loadWords_cell (ws := im.words) (by omega) im.origin s
  refine ⟨fun i hi => ?_, fun a ha => ?_, ?_⟩
  · have hdist : (im.origin + BitVec.ofNat 16 i - im.origin).toNat = i := by bv_omega
    rw [hcell, hdist, List.getElem?_eq_getElem hi, Option.getD_some]
  · have hpast : im.words.length ≤ (a - im.origin).toNat := by bv_omega
    rw [hcell, List.getElem?_eq_none hpast, Option.getD_none]
  · obtain ⟨m, hm, -⟩ := loadWords_mem im.words im.origin s
    rw [hm]

/-! ## The boot order (R221, R225) -/

/-- Store the words of every image in order, a later image over an earlier. -/
def storeImages (ims : List Image) (s : State) : State := ims.foldl (fun s im => loadWords im.origin im.words s) s

theorem Image.fits_iff (im : Image) : im.fits = true ↔ im.origin.toNat + im.words.length ≤ 65536 := decide_eq_true_iff

theorem loadImages_of_fits {ims : List Image} (h : ∀ im ∈ ims, im.fits = true) (s : State) :
    loadImages ims s = .next (storeImages ims s) := by
  induction ims generalizing s with
  | nil => rfl
  | cons im ims ih =>
    obtain ⟨him, hims⟩ := List.forall_mem_cons.mp h
    rw [loadImages, if_pos him, ih hims]
    rfl

/-- One image that does not fit is enough, wherever it stands in the list. -/
theorem loadImages_of_not_fits {ims : List Image} (h : ∃ im ∈ ims, im.fits = false) (s : State) :
    loadImages ims s = .refused .imageOutOfRange := by
  induction ims generalizing s with
  | nil => simp at h
  | cons im ims ih =>
    rw [loadImages]
    cases him : im.fits with
    | false => rfl
    | true => exact ih (by simpa [him] using h) _

/-- The load does not see RUN, so it may as well be made after the start. -/
theorem loadWords_start (ws : List Word) (a : Word) (s : State) :
    loadWords a ws s.start = (loadWords a ws s).start := by
  induction ws generalizing a s with
  | nil => rfl
  | cons w ws ih =>
    rw [loadWords, loadWords]
    exact ih (a + 1#16) (s.setCell a w)

theorem storeImages_start (ims : List Image) (s : State) : storeImages ims s.start = (storeImages ims s).start :=
  List.foldl_hom State.start fun s im => loadWords_start im.words im.origin s

/-- Storing images changes memory alone. -/
theorem storeImages_eq {ims : List Image} (h : ∀ im ∈ ims, im.fits = true) (s : State) :
    storeImages ims s = { s with mem := (storeImages ims s).mem } := by
  obtain ⟨m, hm, -⟩ := loadImages_mem (loadImages_of_fits h s)
  rw [hm]

theorem boot_of_fits {ims : List Image} (h : ∀ im ∈ ims, im.fits = true) (init : Memory) :
    boot init ims = .next (storeImages ims { State.reset with mem := init }) := by
  rw [boot, loadImages_of_fits h]
  exact congrArg _ (storeImages_start ims (State.powerOn init)).symm

theorem boot_of_not_fits {ims : List Image} (h : ∃ im ∈ ims, im.fits = false) (init : Memory) :
    boot init ims = .refused .imageOutOfRange := by
  rw [boot, loadImages_of_not_fits h]

/-- Settles O58: the load, moved past the start of the engine, changes only the memory of the reset state. -/
theorem bootLoadsAndStarts : Obligations.BootLoadsAndStarts := by
  refine ⟨fun init ims h => ?_, fun init ims h => ?_⟩
  · have hfits : ∀ im ∈ ims, im.fits = true := fun im him => im.fits_iff.mpr (h im him)
    exact (boot_of_fits hfits init).trans (congrArg _ (storeImages_eq hfits _))
  · obtain ⟨im, him, hbig⟩ := h
    have hnot : im.fits = false := Bool.eq_false_iff.mpr fun hfits => absurd (im.fits_iff.mp hfits) (by omega)
    exact boot_of_not_fits ⟨im, him, hnot⟩ init

/-! ## The bytes of a file (R224, R226) -/

theorem highByte_append_lowByte (w : Word) : highByte w ++ lowByte w = w :=
  (BitVec.extractLsb'_append_extractLsb'_eq_extractLsb' rfl).trans BitVec.extractLsb'_eq_self

theorem wordsOfBytes_flatMap (ws : List Word) :
    wordsOfBytes (ws.flatMap fun w => [highByte w, lowByte w]) = some ws := by
  induction ws with
  | nil => rfl
  | cons w ws ih =>
    rw [List.flatMap_cons]
    simp only [List.cons_append, List.nil_append, wordsOfBytes, ih, highByte_append_lowByte, Option.map_some]

theorem wordsOfBytes_odd {bytes : List Byte} (h : bytes.length % 2 = 1) : wordsOfBytes bytes = none := by
  induction bytes using wordsOfBytes.induct with
  | case1 => cases h
  | case2 b => rfl
  | case3 hi lo rest ih =>
    rw [List.length_cons, List.length_cons] at h
    rw [wordsOfBytes, ih (by omega), Option.map_none]

theorem imageOfFile_flatMap (o : Word) (ws : List Word) :
    imageOfFile ((o :: ws).flatMap fun w => [highByte w, lowByte w]) = some ⟨o, ws⟩ := by
  rw [imageOfFile, wordsOfBytes_flatMap]

theorem imageOfFile_truncated {bytes : List Byte} (h : bytes = [] ∨ bytes.length % 2 = 1) : imageOfFile bytes = none := by
  rcases h with rfl | hodd
  · rfl
  · rw [imageOfFile, wordsOfBytes_odd hodd]

theorem bootFiles_truncated {bytes : List Byte} (h : imageOfFile bytes = none) (init : Memory) :
    bootFiles init [bytes] = .refused .imageTruncated := by
  rw [bootFiles, imagesOfFiles, h]

/-- Settles O59: cutting a file into words undoes writing them high byte first, and fails on an odd byte at the end. -/
theorem imageFileFormat : Obligations.ImageFileFormat := by
  refine ⟨imageOfFile_flatMap, fun init bytes h => ?_⟩
  have hnone := imageOfFile_truncated h
  exact ⟨hnone, bootFiles_truncated hnone init⟩

end Sys2Proof.Machine
end
